-- ==== Sys2Proof/Word.lean ====
section
/-! DEFINITION. The word types of the KNX codec block. Every value is an unsigned bit vector (spec 00_scope.md R10,
R11, 30_encoding.md R80). -/

namespace Sys2Proof

/-- One byte: an operand field, a result byte, a byte of `IN` or `OUT` (20_memory.md R46). -/
abbrev Byte := BitVec 8

/-- A 16-bit field: a service type, a total length, an input length, an address's wire form (00_scope.md R7). -/
abbrev Half := BitVec 16

/-- The command word `CMD` (30_encoding.md R65). -/
abbrev CmdWord := BitVec 80

end Sys2Proof
end

