-- ==== Sys2Proof/Config.lean ====
section
/-! DEFINITION. What an implementation of the block fixes when it is built (spec 00_scope.md R9), and the model's one
source of free values. -/

namespace Sys2Proof

/-- The build-time parameters (00_scope.md R9). They cannot change while the block runs (10_state.md R29).
`OUT_CAP` is the constant `Config.outCap`. `LATENCY` has no number here: the turns of `Machine.State.agenda` say when a
completion step comes (DESIGN CHOICE, log 1). -/
structure Params where
  /-- `IN_CAP`: the capacity of the input buffer in bytes. -/
  inCap : Nat
  /-- `DS_DECODE_MASK`: the mask on the size byte when it is decoded (42_tunnelling.md R133; OPEN, log 6). -/
  dsDecodeMask : Byte
  /-- `KNOWN_TAGS`: the service types HDR_UNPACK accepts (41_header.md R101). -/
  knownTags : List Half
deriving DecidableEq, Repr, Inhabited

namespace Config

/-- `OUT_CAP`: the capacity of the output buffer in bytes (00_scope.md R9). -/
def outCap : Nat := 22

/-- The service type of a TunnellingRequest (42_tunnelling.md R124). -/
def tunnellingRequestTag : Half := 0x0420#16

/-- The default of `KNOWN_TAGS`, the table of 41_header.md R101. PRESUMED for every tag but `0x0420` (log 5): the spec
marks the other seven as general knowledge. -/
def defaultTags : List Half :=
  [0x0205#16, 0x0206#16, 0x0207#16, 0x0208#16, 0x0209#16, 0x020A#16, 0x0420#16, 0x0421#16]

/-- The values the spec chooses for the parameters (00_scope.md R9). DESIGN CHOICE of the spec for the mask, which it
leaves open (log 6). -/
def chosenParams : Params := { inCap := 32, dsDecodeMask := 0x0F#8, knownTags := defaultTags }

/-- A free value: nothing is known of it. It stands for each byte of a response the spec does not define and for a byte
of `IN` the host wrote during a transaction (log 3, log 4). `State.draws` numbers the uses. -/
opaque freeByte : Nat → Byte

end Config
end Sys2Proof
end

