-- ==== Sys2Proof/Machine/State.lean ====
section
/-! DEFINITION. The state of the block (spec 10_state.md, the table above R21), the host's side of the interface (R40),
and the reasons a step can stop. Plain data throughout. -/

namespace Sys2Proof.Machine

/-- Why the machine stops with a fault. Status errors are no faults (60_exceptions.md R152): they are responses. -/
inductive Fault where
  /-- An access to an address of `IN` at or above `IN_CAP`. Raised by a host write to such an address
  (20_memory.md R46; DESIGN CHOICE, log 12). No operation makes such a read in a well-formed block (R54). Safe: the machine stops. -/
  | inAddressOutside (addr : Nat)
  /-- A write to an address of `OUT` above 21. No operation makes one (20_memory.md R56). Safe: the machine stops. -/
  | outAddressOutside (addr : Nat)
deriving DecidableEq, Repr

/-- Why a step is refused. -/
inductive Refusal where
  /-- An instruction with no meaning yet. Raised by an arm of `exec` alone. Safe: nothing is claimed of it. -/
  | notModelled (mnemonic : String)
  /-- The host issues a command while `BUSY = 1` (10_state.md R30, hazard H1 of 70_reset_and_hazards.md R175). Raised by
  the host's issue. Safe: the spec says there is no such step. -/
  | issueWhileBusy
  /-- The host reads the response while `RESP_VALID = 0` (10_state.md R35, hazard H3). Raised by the host's read. Safe:
  the spec gives the read no value. -/
  | readWhileNotValid
deriving DecidableEq, Repr

/-- The error kinds an operation can raise (60_exceptions.md R145). -/
inductive Error where
  | addressFormatError
  | rangeError
  | lengthError
  | unsupportedServiceType
  | unsupportedDatapointSize
  | illegalOperation
deriving DecidableEq, Repr

/-- A byte memory: address and byte pairs with strictly rising addresses, and no pair that says what an unlisted address
reads as. An unlisted address of `IN` holds no value (10_state.md R41); one of `OUT` is zero (R39). See `Memory.wf`. -/
abbrev Memory := List Host.Cell

/-- The result bytes `R0 .. R8` (10_state.md R22). -/
structure Results where
  r0 : Byte := 0#8
  r1 : Byte := 0#8
  r2 : Byte := 0#8
  r3 : Byte := 0#8
  r4 : Byte := 0#8
  r5 : Byte := 0#8
  r6 : Byte := 0#8
  r7 : Byte := 0#8
  r8 : Byte := 0#8
deriving DecidableEq, Repr, Inhabited

/-- The response fields, which change together (10_state.md R31). The defaults are the working copy `Exec` starts from
and the reset values (R39). -/
structure Response where
  /-- STATUS (10_state.md R23). -/
  status : Byte := 0#8
  /-- OUT_LEN (10_state.md R24). -/
  outLen : Byte := 0#8
  /-- OUT (20_memory.md R45). -/
  out : Memory := []
  /-- R0 .. R8. -/
  results : Results := {}
deriving DecidableEq, Repr, Inhabited

/-- The set FAULT of model faults: each of its two names is in it or not (10_state.md R42). -/
structure FaultSet where
  /-- UNWRITTEN_IN_READ (10_state.md R41). -/
  unwrittenInRead : Bool := false
  /-- HOST_IN_WRITE_WHILE_BUSY (10_state.md R36). -/
  hostInWriteWhileBusy : Bool := false
deriving DecidableEq, Repr, Inhabited

/-- The host's interactions, the five rows of 10_state.md R40 and no other: that table is closed. -/
inductive HostAction where
  | writeIn (addr : Nat) (value : Byte)
  | issue (cmd : CmdWord)
  | wait
  | readResponse
  | reset
deriving DecidableEq, Repr

/-- What 60_exceptions.md R145 says the host can read again after an error: CMD, and a byte of IN. It is asked of a state
(`State.readAgain`) and is no step and no interaction, because the table of 10_state.md R40 is closed (DESIGN CHOICE,
log 18). -/
inductive HostLook where
  /-- At CMD. -/
  | command
  /-- At one byte of IN. -/
  | inByte (addr : Nat)
deriving DecidableEq, Repr

/-- What is read again. -/
inductive HostSight where
  | command (cmd : CmdWord)
  /-- A byte of IN, none where the host has not written it: such a byte holds no value (10_state.md R41). -/
  | inByte (value : Option Byte)
deriving DecidableEq, Repr

/-- What the host gets back (10_state.md R40). -/
inductive HostReply where
  | flags (busy respValid : Bool)
  | response (r : Response)
deriving DecidableEq, Repr

/-- Whose move is next: the unit's, or the host's with what it does. -/
inductive Turn where
  | unit
  | host (a : HostAction)
deriving DecidableEq, Repr

/-- The state of the block, its parameters, and the model's own bookkeeping. -/
structure State where
  /-- The build-time parameters. No step writes them (00_scope.md R9, 10_state.md R29; carried here: log 2). -/
  params : Params
  /-- CMD, the command latch (10_state.md R27). -/
  cmd : CmdWord
  /-- BUSY (10_state.md R25). -/
  busy : Bool
  /-- RESP_VALID (10_state.md R26). -/
  respValid : Bool
  /-- STATUS, OUT_LEN, OUT and R0 .. R8. -/
  resp : Response
  /-- IN (20_memory.md R45). -/
  inBuf : Memory
  /-- FAULT (10_state.md R42). -/
  faults : FaultSet
  /-- The model's own: the turns still to come. This is the schedule that 70_reset_and_hazards.md R178 leaves open
  (DESIGN CHOICE, log 1). -/
  agenda : List Turn
  /-- The model's own: what the host has got back, newest first (log 9). -/
  replies : List HostReply
  /-- The model's own: how many free values have been used (log 3). -/
  draws : Nat
deriving DecidableEq, Repr

/-- The state right after reset (10_state.md R39, 70_reset_and_hazards.md R170, R172), with the spec's chosen
parameters. The last three fields are the model's own (DESIGN CHOICE, log 7). -/
def State.reset : State :=
  { params := Config.chosenParams
    cmd := 0#80
    busy := false
    respValid := false
    resp := {}
    inBuf := []
    faults := {}
    agenda := []
    replies := []
    draws := 0 }

end Sys2Proof.Machine
end

