-- ==== Sys2Proof/Machine/Flags.lean ====
section
/-! DEFINITION. The block has no condition flags (spec 10_state.md R29). Its one computed status is STATUS; this file
holds its codes (60_exceptions.md R145). -/

namespace Sys2Proof.Machine

/-- STATUS of an operation that ends without error. -/
def statusOk : Byte := 0x00#8

/-- `code(E)` (60_exceptions.md R145). Code 0x01 is assigned and never produced. -/
def Error.code : Error → Byte
  | .addressFormatError => 0x01#8
  | .rangeError => 0x02#8
  | .lengthError => 0x03#8
  | .unsupportedServiceType => 0x04#8
  | .unsupportedDatapointSize => 0x05#8
  | .illegalOperation => 0x07#8

/-- The values STATUS may legally hold (10_state.md R23). -/
def legalStatus (c : Byte) : Bool :=
  [0x00#8, 0x02#8, 0x03#8, 0x04#8, 0x05#8, 0x07#8].contains c

/-- The values OUT_LEN may legally hold (10_state.md R24). -/
def legalOutLen (n : Byte) : Bool := [0#8, 2#8, 3#8, 4#8, 6#8, 21#8, 22#8].contains n

end Sys2Proof.Machine
end

