-- ==== Sys2Proof/Syntax.lean ====
section
/-! DEFINITION. The commands of the block: one constructor per row of spec/opcode_table.json. -/

namespace Sys2Proof

/-- The ten operations with the operands of 30_encoding.md R67, in field order. A 16-bit operand stands for its two
fields (R69). A constructor holds only the fields its operation reads: the others are ignored (R72). -/
inductive Instr where
  /-- GA_PACK, OP 0x01 (40_address.md R87). -/
  | gaPack (main middle sub : Byte)
  /-- GA_UNPACK, OP 0x02 (40_address.md R88). -/
  | gaUnpack (byte0 byte1 : Byte)
  /-- IA_PACK, OP 0x03 (40_address.md R89). -/
  | iaPack (area line device : Byte)
  /-- IA_UNPACK, OP 0x04 (40_address.md R90). -/
  | iaUnpack (byte0 byte1 : Byte)
  /-- HDR_PACK, OP 0x10 (41_header.md R102). -/
  | hdrPack (serviceType totalLength : Half)
  /-- HDR_UNPACK, OP 0x11 (41_header.md R103). -/
  | hdrUnpack (inLen : Half)
  /-- TAIL_PACK, OP 0x20 (42_tunnelling.md R121). -/
  | tailPack (dataSize apci value : Byte)
  /-- TAIL_UNPACK, OP 0x21 (42_tunnelling.md R122). -/
  | tailUnpack (sizeByte byteN byteN1 byteN2 : Byte)
  /-- TREQ_PACK, OP 0x30 (42_tunnelling.md R128). -/
  | treqPack (channelId sequenceCounter messageCode main middle sub dataSize apci value : Byte)
  /-- TREQ_UNPACK, OP 0x31 (42_tunnelling.md R131). -/
  | treqUnpack (inLen : Half)
deriving DecidableEq, Repr, Inhabited

end Sys2Proof
end

