-- ==== Sys2Proof/Decode.lean ====
section
/-! DEFINITION. The decoder and the encoder of format CMDW (spec 30_encoding.md R65 to R73, R77, R78). -/

namespace Sys2Proof

/-- Why no operation was decoded. A reserved opcode is no failure of the machine: its command completes with
IllegalOperation (30_encoding.md R71). -/
inductive DecodeError where
  /-- The opcode selects no operation (30_encoding.md R71). -/
  | reservedOpcode (op : Byte)
  /-- Fewer than the ten bytes of a command word were given (only `decodeBytes` answers so; log 16). -/
  | truncated
deriving DecidableEq, Repr

/-- The opcode `OP = CMD[7:0]` (30_encoding.md R66). -/
def opcodeOf (w : CmdWord) : Byte := w.extractLsb' 0 8

/-- Operand field `Fi = CMD[8*i+15 : 8*i+8]` (10_state.md R21, 30_encoding.md R66). -/
def fieldOf (w : CmdWord) (i : Nat) : Byte := w.extractLsb' (8 * i + 8) 8

/-- A 16-bit operand from two fields, `Fi ++ F(i+1)` (30_encoding.md R69). -/
def halfFieldOf (w : CmdWord) (i : Nat) : Half := fieldOf w i ++ fieldOf w (i + 1)

/-- The decoder: total, by the opcode alone (30_encoding.md R70, R73, R78). -/
def decode (w : CmdWord) : Except DecodeError Instr :=
  match (opcodeOf w).toNat with
  | 0x01 => .ok (.gaPack (fieldOf w 0) (fieldOf w 1) (fieldOf w 2))
  | 0x02 => .ok (.gaUnpack (fieldOf w 0) (fieldOf w 1))
  | 0x03 => .ok (.iaPack (fieldOf w 0) (fieldOf w 1) (fieldOf w 2))
  | 0x04 => .ok (.iaUnpack (fieldOf w 0) (fieldOf w 1))
  | 0x10 => .ok (.hdrPack (halfFieldOf w 0) (halfFieldOf w 2))
  | 0x11 => .ok (.hdrUnpack (halfFieldOf w 0))
  | 0x20 => .ok (.tailPack (fieldOf w 0) (fieldOf w 1) (fieldOf w 2))
  | 0x21 => .ok (.tailUnpack (fieldOf w 0) (fieldOf w 1) (fieldOf w 2) (fieldOf w 3))
  | 0x30 => .ok (.treqPack (fieldOf w 0) (fieldOf w 1) (fieldOf w 2) (fieldOf w 3) (fieldOf w 4) (fieldOf w 5)
      (fieldOf w 6) (fieldOf w 7) (fieldOf w 8))
  | 0x31 => .ok (.treqUnpack (halfFieldOf w 0))
  | _ => .error (.reservedOpcode (opcodeOf w))

/-- The command word of ten bytes, `OP` first (20_memory.md R51). -/
def wordOfBytes (op f0 f1 f2 f3 f4 f5 f6 f7 f8 : Byte) : CmdWord :=
  f8 ++ f7 ++ f6 ++ f5 ++ f4 ++ f3 ++ f2 ++ f1 ++ f0 ++ op

/-- The decoder on a byte sequence, `OP` first: it consumes exactly ten bytes (30_encoding.md R65, 20_memory.md R51). -/
def decodeBytes : List Byte → Except DecodeError (Instr × List Byte)
  | op :: f0 :: f1 :: f2 :: f3 :: f4 :: f5 :: f6 :: f7 :: f8 :: rest =>
    match decode (wordOfBytes op f0 f1 f2 f3 f4 f5 f6 f7 f8) with
    | .ok i => .ok (i, rest)
    | .error e => .error e
  | _ => .error .truncated

/-- The opcode of each operation (30_encoding.md R70). -/
def Instr.opcode : Instr → Byte
  | .gaPack _ _ _ => 0x01#8
  | .gaUnpack _ _ => 0x02#8
  | .iaPack _ _ _ => 0x03#8
  | .iaUnpack _ _ => 0x04#8
  | .hdrPack _ _ => 0x10#8
  | .hdrUnpack _ => 0x11#8
  | .tailPack _ _ _ => 0x20#8
  | .tailUnpack _ _ _ _ => 0x21#8
  | .treqPack _ _ _ _ _ _ _ _ _ => 0x30#8
  | .treqUnpack _ => 0x31#8

/-- The high byte of a 16-bit operand, its lower-numbered field (30_encoding.md R69). -/
def hiByte (v : Half) : Byte := v.extractLsb' 8 8

/-- The low byte of a 16-bit operand. -/
def loByte (v : Half) : Byte := v.extractLsb' 0 8

/-- The operand fields each operation reads, F0 first (30_encoding.md R67). -/
def Instr.fields : Instr → List Byte
  | .gaPack main middle sub => [main, middle, sub]
  | .gaUnpack b0 b1 => [b0, b1]
  | .iaPack area line device => [area, line, device]
  | .iaUnpack b0 b1 => [b0, b1]
  | .hdrPack st tl => [hiByte st, loByte st, hiByte tl, loByte tl]
  | .hdrUnpack n => [hiByte n, loByte n]
  | .tailPack ds apci value => [ds, apci, value]
  | .tailUnpack sb bN bN1 bN2 => [sb, bN, bN1, bN2]
  | .treqPack ch seq mc main middle sub ds apci value => [ch, seq, mc, main, middle, sub, ds, apci, value]
  | .treqUnpack n => [hiByte n, loByte n]

/-- The command word of an instruction, the fields it ignores written zero (30_encoding.md R66, R77). -/
def encode (i : Instr) : CmdWord :=
  let f (k : Nat) : Byte := i.fields.getD k 0#8
  wordOfBytes i.opcode (f 0) (f 1) (f 2) (f 3) (f 4) (f 5) (f 6) (f 7) (f 8)

/-- A command word as ten bytes, `OP` first (20_memory.md R51). -/
def bytesOfWord (w : CmdWord) : List Byte :=
  opcodeOf w :: (List.range 9).map (fieldOf w)

/-- The instruction the decoder reads from a word numbered as spec/opcode_table.json numbers it. Bit 0 of that numbering
is bit 0 of `CMD`. The bits above `nbits` are zero. -/
def decodeTableWord (nbits w : Nat) : Option Instr :=
  match decode (BitVec.ofNat 80 (w % 2 ^ nbits)) with
  | .ok i => some i
  | .error _ => none

end Sys2Proof
end

