-- ==== Sys2Proof/Machine/Operands.lean ====
section
/-! DEFINITION. The bit fields the operations pack and unpack (spec 40_address.md R85, R86, 42_tunnelling.md R116 to
R123), each written once as the concatenation or slice the spec's pseudocode writes. -/

namespace Sys2Proof.Machine

/-- `zext_8(v[lo+w-1:lo])` (00_scope.md R10, R11). -/
def bits8 {n : Nat} (v : BitVec n) (lo w : Nat) : Byte := (v.extractLsb' lo w).setWidth 8

/-- Byte 0 of a group address, `main[4:0] ++ middle[2:0]` (40_address.md R85, R87). -/
def gaByte0 (main middle : Byte) : Byte := main.extractLsb' 0 5 ++ middle.extractLsb' 0 3

/-- `main` of a group address, bits 7:3 of byte 0 (40_address.md R88). -/
def gaMain (byte0 : Byte) : Byte := bits8 byte0 3 5

/-- `middle` of a group address, bits 2:0 of byte 0 (40_address.md R88). -/
def gaMiddle (byte0 : Byte) : Byte := bits8 byte0 0 3

/-- The wire form of an individual address, `area[3:0] ++ line[3:0] ++ device` (40_address.md R86, R89). -/
def iaWord (area line device : Byte) : Half := area.extractLsb' 0 4 ++ line.extractLsb' 0 4 ++ device

/-- `area` of an individual address, bits 15:12 (40_address.md R90). -/
def iaArea (v : Half) : Byte := bits8 v 12 4

/-- `line` of an individual address, bits 11:8 (40_address.md R90). -/
def iaLine (v : Half) : Byte := bits8 v 8 4

/-- `device` of an individual address, bits 7:0 (40_address.md R90). -/
def iaDevice (v : Half) : Byte := bits8 v 0 8

/-- The data sizes the block supports, 1 and 2 (00_scope.md R3). -/
def supportedSize (ds : Byte) : Bool := decide (ds = 1#8 ∨ ds = 2#8)

/-- The size byte, `0b0000 ++ ds[3:0]` (42_tunnelling.md R116). -/
def sizeByteOf (ds : Byte) : Byte := 0#4 ++ ds.extractLsb' 0 4

/-- Byte N, `0b000000 ++ apci[3:2]` (42_tunnelling.md R117). -/
def byteNOf (apci : Byte) : Byte := 0#6 ++ apci.extractLsb' 2 2

/-- Byte N+1 for a boolean, `apci[1:0] ++ 0b00000 ++ value[0]` (42_tunnelling.md R118). -/
def byteN1OfBool (apci value : Byte) : Byte := apci.extractLsb' 0 2 ++ 0#5 ++ value.extractLsb' 0 1

/-- Byte N+1 for an 8-bit value, `apci[1:0] ++ 0b000000` (42_tunnelling.md R118). -/
def byteN1OfByte (apci : Byte) : Byte := apci.extractLsb' 0 2 ++ 0#6

/-- The data size a size byte carries, `size_byte & DS_DECODE_MASK` (42_tunnelling.md R133). -/
def dataSizeOf (p : Params) (sizeByte : Byte) : Byte := sizeByte &&& p.dsDecodeMask

/-- APCI reassembled from its two split fields, `zext_8(bN[1:0] ++ bN1[7:6])` (42_tunnelling.md R120, R132). -/
def apciOf (bN bN1 : Byte) : Byte := bits8 (bN.extractLsb' 0 2 ++ bN1.extractLsb' 6 2) 0 4

/-- The boolean value, `zext_8(bN1[0])` (42_tunnelling.md R132). -/
def boolValueOf (bN1 : Byte) : Byte := bits8 bN1 0 1

/-- The length of a frame, `L = 20 + ds`, 16 bits (42_tunnelling.md R123). -/
def frameLength (ds : Byte) : Half := 20#16 + ds.setWidth 16

end Sys2Proof.Machine
end

