-- ==== Sys2Proof/Machine/Ops.lean ====
section
/-! DEFINITION. The shared operations: byte memories, `MemRead` and `MemWrite` (spec 00_scope.md R13), `raise` (R14), and
how an operation's end becomes the completion step (10_state.md R31 to R33, R41). -/

namespace Sys2Proof.Machine

/-! ### Byte memories -/

/-- The byte listed at an address. -/
def Memory.listed : Memory → Nat → Option Byte
  | [], _ => none
  | (k, b) :: rest, a => if k = a then some b else Memory.listed rest a

/-- The list with one byte listed at an address, in rising order. -/
def Memory.list : Memory → Nat → Byte → Memory
  | [], a, b => [(a, b)]
  | (k, c) :: rest, a, b =>
    if a < k then (a, b) :: (k, c) :: rest
    else if a = k then (a, b) :: rest
    else (k, c) :: Memory.list rest a b

/-- The list with an address no longer listed. -/
def Memory.unlist : Memory → Nat → Memory
  | [], _ => []
  | (k, c) :: rest, a => if k = a then Memory.unlist rest a else (k, c) :: Memory.unlist rest a

/-- One byte read, where `blank` is what an unlisted address reads as. -/
def Memory.get (blank : Option Byte) (m : Memory) (a : Nat) : Option Byte :=
  match Memory.listed m a with
  | some b => some b
  | none => blank

/-- One byte written. Writing what an unlisted address reads as removes the entry, so that equal memories are equal
lists. -/
def Memory.set (blank : Option Byte) (m : Memory) (a : Nat) (b : Byte) : Memory :=
  if blank = some b then Memory.unlist m a else Memory.list m a b

/-- Every address listed is above `a`, and they rise strictly. -/
def Memory.risesFrom : Nat → Memory → Bool
  | _, [] => true
  | a, (k, _) :: rest => decide (a ≤ k) && Memory.risesFrom (k + 1) rest

/-- The canonical form: strictly rising addresses below `cap`, and no entry that says what an unlisted address reads
as. -/
def Memory.wf (blank : Option Byte) (cap : Nat) (m : Memory) : Bool :=
  Memory.risesFrom 0 m && m.all fun c => decide (c.1 < cap) && decide (blank ≠ some c.2)

/-- What an unlisted address of `IN` reads as: nothing, the byte is unwritten (10_state.md R41). -/
def inBlank : Option Byte := none

/-- What an unlisted address of `OUT` reads as: zero (10_state.md R31, R39). -/
def outBlank : Option Byte := some 0#8

/-- The byte of `IN` at an address, none where the host has not written it. -/
def State.inByte (s : State) (a : Nat) : Option Byte := Memory.get inBlank s.inBuf a

/-- The byte of `OUT` at an address. -/
def Response.outByte (r : Response) (a : Nat) : Byte := (Memory.get outBlank r.out a).getD 0#8

/-- `OUT[0 .. OUT_LEN-1]` (10_state.md R24, R32). -/
def Response.outBytes (r : Response) : List Byte := (List.range r.outLen.toNat).map r.outByte

/-! ### The operation in progress -/

/-- Why an operation ends before its last statement. -/
inductive Stop where
  /-- `raise E` (00_scope.md R14). -/
  | raised (e : Error)
  /-- It read a byte of `IN` the host has not written (10_state.md R41). -/
  | unwritten
  /-- It read outside `IN`. No operation does so in a well-formed block (20_memory.md R54). -/
  | outsideIn (addr : Nat)
  /-- It wrote outside `OUT`. No operation does so (20_memory.md R56). -/
  | outsideOut (addr : Nat)
deriving DecidableEq, Repr

/-- An operation: the value it yields, or its first stop. -/
abbrev Op (α : Type) := Except Stop α

/-- `if c: raise E` (00_scope.md R15). -/
def raiseIf (c : Bool) (e : Error) : Op Unit := if c then .error (.raised e) else .ok ()

/-- `MemRead(a, 1)` (00_scope.md R13). -/
def memRead1 (p : Params) (inBuf : Memory) (a : Nat) : Op Byte :=
  if p.inCap ≤ a then .error (.outsideIn a)
  else match Memory.get inBlank inBuf a with
    | some b => .ok b
    | none => .error .unwritten

/-- `MemRead(a, 2) = IN[a] ++ IN[a+1]` (20_memory.md R48, R49). -/
def memRead2 (p : Params) (inBuf : Memory) (a : Nat) : Op Half := do
  let hi ← memRead1 p inBuf a
  let lo ← memRead1 p inBuf (a + 1)
  .ok (hi ++ lo)

/-- `MemWrite(a, 1, v)` on the working copy of `OUT` (00_scope.md R13). -/
def memWrite1 (out : Memory) (a : Nat) (v : Byte) : Op Memory :=
  if Config.outCap ≤ a then .error (.outsideOut a) else .ok (Memory.set outBlank out a v)

/-- `MemWrite(a, 2, v)`: `v[15:8]` at `a`, `v[7:0]` at `a+1` (20_memory.md R48, R49). -/
def memWrite2 (out : Memory) (a : Nat) (v : Half) : Op Memory := do
  let out ← memWrite1 out a (hiByte v)
  memWrite1 out (a + 1) (loByte v)

/-! ### The completion step -/

/-- The response of a pack operation that ends well: the bytes it wrote and their number (10_state.md R32). -/
def packed (out : Memory) (len : Byte) : Response := { status := statusOk, outLen := len, out := out }

/-- The response of an unpack operation that ends well: the results it wrote (10_state.md R32). -/
def unpacked (results : Results) : Response := { status := statusOk, results := results }

/-- The response of an operation that raises `e` (10_state.md R33): the code, all else zero. -/
def errorResponse (e : Error) : Response := { status := e.code }

/-- The response fields replaced together, `BUSY <- 0`, `RESP_VALID <- 1` (10_state.md R31). -/
def State.respond (s : State) (r : Response) : State := { s with resp := r, busy := false, respValid := true }

/-- Taking an error: the one effect of `raise E` on the machine (00_scope.md R14, 10_state.md R33). No state is saved and
control goes nowhere (60_exceptions.md R149), so there is no return operation beside it (R150): the next command is
accepted because `BUSY = 0`. -/
def State.takeError (s : State) (e : Error) : State := s.respond (errorResponse e)

/-- Free values written to `OUT[0 .. k-1]`. -/
def freeOut (draw : Nat) : (k : Nat) → Memory
  | 0 => []
  | k + 1 => Memory.set outBlank (freeOut draw k) k (Config.freeByte (draw + k))

/-- How many free values a response the spec does not define takes: 22 bytes of `OUT`, nine results, STATUS and
OUT_LEN. -/
def undefinedDraws : Nat := 33

/-- A response the spec does not define: every byte of it is a free value (60_exceptions.md R152, program P5; log 3). -/
def undefinedResponse (draw : Nat) : Response :=
  { status := Config.freeByte (draw + 31)
    outLen := Config.freeByte (draw + 32)
    out := freeOut draw Config.outCap
    results :=
      { r0 := Config.freeByte (draw + 22), r1 := Config.freeByte (draw + 23), r2 := Config.freeByte (draw + 24)
        r3 := Config.freeByte (draw + 25), r4 := Config.freeByte (draw + 26), r5 := Config.freeByte (draw + 27)
        r6 := Config.freeByte (draw + 28), r7 := Config.freeByte (draw + 29), r8 := Config.freeByte (draw + 30) } }

/-- The completion of an operation that read an unwritten byte of `IN`: UNWRITTEN_IN_READ is recorded (10_state.md R41,
R42) and the response is not a defined result (60_exceptions.md R152; log 3). -/
def State.takeUnwritten (s : State) : State :=
  { s.respond (undefinedResponse s.draws) with
    faults := { s.faults with unwrittenInRead := true }
    draws := s.draws + undefinedDraws }

/-- The completion step's effect, by how the operation ended (10_state.md R31 to R33, R41). -/
def complete (o : Op Response) (s : State) : Host.Outcome State Fault Refusal :=
  match o with
  | .ok r => .next (s.respond r)
  | .error (.raised e) => .next (s.takeError e)
  | .error .unwritten => .next s.takeUnwritten
  | .error (.outsideIn a) => .fault (.inAddressOutside a)
  | .error (.outsideOut a) => .fault (.outAddressOutside a)

end Sys2Proof.Machine
end

