-- ==== Sys2Proof/Machine/Address.lean ====
section
/-! DEFINITION. The address unit (spec 40_address.md). -/

namespace Sys2Proof.Machine

/-- The operation of 40_address.md R87. -/
def gaPack (main middle sub : Byte) : Op Response := do
  raiseIf (decide (31#8 < main)) .rangeError
  raiseIf (decide (7#8 < middle)) .rangeError
  let out ← memWrite1 [] 0 (gaByte0 main middle)
  let out ← memWrite1 out 1 sub
  .ok (packed out 2#8)

/-- GA_PACK (40_address.md R87). -/
def execGaPack (main middle sub : Byte) (s : State) : Host.Outcome State Fault Refusal :=
  complete (gaPack main middle sub) s

/-- The operation of 40_address.md R88. -/
def gaUnpack (byte0 byte1 : Byte) : Op Response :=
  .ok (unpacked { r0 := gaMain byte0, r1 := gaMiddle byte0, r2 := byte1 })

/-- GA_UNPACK (40_address.md R88). -/
def execGaUnpack (byte0 byte1 : Byte) (s : State) : Host.Outcome State Fault Refusal :=
  complete (gaUnpack byte0 byte1) s

/-- The operation of 40_address.md R89. -/
def iaPack (area line device : Byte) : Op Response := do
  raiseIf (decide (15#8 < area)) .rangeError
  raiseIf (decide (15#8 < line)) .rangeError
  let out ← memWrite2 [] 0 (iaWord area line device)
  .ok (packed out 2#8)

/-- IA_PACK (40_address.md R89). -/
def execIaPack (area line device : Byte) (s : State) : Host.Outcome State Fault Refusal :=
  complete (iaPack area line device) s

/-- The operation of 40_address.md R90. -/
def iaUnpack (byte0 byte1 : Byte) : Op Response :=
  let v : Half := byte0 ++ byte1
  .ok (unpacked { r0 := iaArea v, r1 := iaLine v, r2 := iaDevice v })

/-- IA_UNPACK (40_address.md R90). -/
def execIaUnpack (byte0 byte1 : Byte) (s : State) : Host.Outcome State Fault Refusal :=
  complete (iaUnpack byte0 byte1) s

end Sys2Proof.Machine
end

