-- ==== Sys2Proof/Machine/Header.lean ====
section
/-! DEFINITION. The header unit (spec 41_header.md). -/

namespace Sys2Proof.Machine

/-- The six header bytes of 41_header.md R100 on a working copy of `OUT`. -/
def writeHeader (out : Memory) (serviceType totalLength : Half) : Op Memory := do
  let out ← memWrite1 out 0 0x06#8
  let out ← memWrite1 out 1 0x10#8
  let out ← memWrite2 out 2 serviceType
  memWrite2 out 4 totalLength

/-- The operation of 41_header.md R102. -/
def hdrPack (serviceType totalLength : Half) : Op Response := do
  let out ← writeHeader [] serviceType totalLength
  .ok (packed out 6#8)

/-- HDR_PACK (41_header.md R102). -/
def execHdrPack (serviceType totalLength : Half) (s : State) : Host.Outcome State Fault Refusal :=
  complete (hdrPack serviceType totalLength) s

/-- The operation of 41_header.md R103. `header_length` and `version` are returned as read (R104), and `total_length` is
compared with nothing (R105). -/
def hdrUnpack (p : Params) (inBuf : Memory) (n : Half) : Op Response := do
  raiseIf (decide (n < 6#16)) .lengthError
  let hl ← memRead1 p inBuf 0
  let ver ← memRead1 p inBuf 1
  let st ← memRead2 p inBuf 2
  let tl ← memRead2 p inBuf 4
  raiseIf (!p.knownTags.contains st) .unsupportedServiceType
  .ok (unpacked
    { r0 := hl, r1 := ver, r2 := hiByte st, r3 := loByte st, r4 := hiByte tl, r5 := loByte tl })

/-- HDR_UNPACK (41_header.md R103). -/
def execHdrUnpack (inLen : Half) (s : State) : Host.Outcome State Fault Refusal :=
  complete (hdrUnpack s.params s.inBuf inLen) s

end Sys2Proof.Machine
end

