-- ==== Sys2Proof/Machine/Tail.lean ====
section
/-! DEFINITION. The sub-byte bit-packing engine (spec 42_tunnelling.md R116 to R122). -/

namespace Sys2Proof.Machine

/-- The size byte, byte N, byte N+1 and, for data size 2, byte N+2, written from address `a` of a working copy of `OUT`
(42_tunnelling.md R116 to R119). TAIL_PACK writes them at 0 and TREQ_PACK at 18. -/
def writeTail (out : Memory) (a : Nat) (ds apci value : Byte) : Op Memory := do
  let out ← memWrite1 out a (sizeByteOf ds)
  let out ← memWrite1 out (a + 1) (byteNOf apci)
  if ds = 1#8 then memWrite1 out (a + 2) (byteN1OfBool apci value)
  else
    let out ← memWrite1 out (a + 2) (byteN1OfByte apci)
    memWrite1 out (a + 3) value

/-- The operation of 42_tunnelling.md R121. -/
def tailPack (ds apci value : Byte) : Op Response := do
  raiseIf (!supportedSize ds) .unsupportedDatapointSize
  raiseIf (decide (15#8 < apci)) .rangeError
  let out ← writeTail [] 0 ds apci value
  .ok (packed out (if ds = 1#8 then 3#8 else 4#8))

/-- TAIL_PACK (42_tunnelling.md R121). -/
def execTailPack (dataSize apci value : Byte) (s : State) : Host.Outcome State Fault Refusal :=
  complete (tailPack dataSize apci value) s

/-- The operation of 42_tunnelling.md R122. -/
def tailUnpack (p : Params) (sizeByte bN bN1 bN2 : Byte) : Op Response := do
  let ds := dataSizeOf p sizeByte
  raiseIf (!supportedSize ds) .unsupportedDatapointSize
  .ok (unpacked { r0 := ds, r1 := apciOf bN bN1, r2 := if ds = 1#8 then boolValueOf bN1 else bN2 })

/-- TAIL_UNPACK (42_tunnelling.md R122). -/
def execTailUnpack (sizeByte byteN byteN1 byteN2 : Byte) (s : State) : Host.Outcome State Fault Refusal :=
  complete (tailUnpack s.params sizeByte byteN byteN1 byteN2) s

end Sys2Proof.Machine
end

