-- ==== Sys2Proof/Machine/Frame.lean ====
section
/-! DEFINITION. The tunnelling-request frame assembler and parser (spec 42_tunnelling.md R123 to R131). -/

namespace Sys2Proof.Machine

/-- The operation of 42_tunnelling.md R128. The fixed bytes are those of R125. -/
def treqPack (ch seq mc main middle sub ds apci value : Byte) : Op Response := do
  raiseIf (decide (31#8 < main)) .rangeError
  raiseIf (decide (7#8 < middle)) .rangeError
  raiseIf (!supportedSize ds) .unsupportedDatapointSize
  raiseIf (decide (15#8 < apci)) .rangeError
  let len := frameLength ds
  let out ← writeHeader [] Config.tunnellingRequestTag len
  let out ← memWrite1 out 6 0x04#8
  let out ← memWrite1 out 7 ch
  let out ← memWrite1 out 8 seq
  let out ← memWrite1 out 9 0x00#8
  let out ← memWrite1 out 10 mc
  let out ← memWrite1 out 11 0x00#8
  let out ← memWrite1 out 12 0xBC#8
  let out ← memWrite1 out 13 0xE0#8
  let out ← memWrite2 out 14 0x0000#16
  let out ← memWrite1 out 16 (gaByte0 main middle)
  let out ← memWrite1 out 17 sub
  let out ← writeTail out 18 ds apci value
  .ok (packed out (len.setWidth 8))

/-- TREQ_PACK (42_tunnelling.md R128). -/
def execTreqPack (ch seq mc main middle sub ds apci value : Byte) (s : State) : Host.Outcome State Fault Refusal :=
  complete (treqPack ch seq mc main middle sub ds apci value) s

/-- The operation of 42_tunnelling.md R131. The bytes R130 lists are not read. -/
def treqUnpack (p : Params) (inBuf : Memory) (n : Half) : Op Response := do
  raiseIf (decide (n < 6#16)) .lengthError
  let st ← memRead2 p inBuf 2
  raiseIf (!p.knownTags.contains st) .unsupportedServiceType
  raiseIf (decide (st ≠ Config.tunnellingRequestTag)) .unsupportedServiceType
  let tl ← memRead2 p inBuf 4
  raiseIf (decide (tl ≠ n)) .lengthError
  raiseIf (decide (n < 19#16)) .lengthError
  let sizeByte ← memRead1 p inBuf 18
  let ds := dataSizeOf p sizeByte
  raiseIf (!supportedSize ds) .unsupportedDatapointSize
  raiseIf (decide (n ≠ frameLength ds)) .lengthError
  let ch ← memRead1 p inBuf 7
  let seq ← memRead1 p inBuf 8
  let mc ← memRead1 p inBuf 10
  let g ← memRead2 p inBuf 16
  let bN ← memRead1 p inBuf 19
  let bN1 ← memRead1 p inBuf 20
  let value ← if ds = 1#8 then (.ok (boolValueOf bN1) : Op Byte) else memRead1 p inBuf 21
  .ok (unpacked
    { r0 := ch, r1 := seq, r2 := mc
      r3 := gaMain (hiByte g), r4 := gaMiddle (hiByte g), r5 := loByte g
      r6 := ds, r7 := apciOf bN bN1, r8 := value })

/-- TREQ_UNPACK (42_tunnelling.md R131). -/
def execTreqUnpack (inLen : Half) (s : State) : Host.Outcome State Fault Refusal :=
  complete (treqUnpack s.params s.inBuf inLen) s

end Sys2Proof.Machine
end

