-- ==== Sys2Proof/Machine/Dispatch.lean ====
section
/-! DEFINITION. `Exec`'s choice of the operation (spec 10_state.md R31, 30_encoding.md R78): one arm per constructor. -/

namespace Sys2Proof.Machine

/-- The completion step of a decoded command: the operation the opcode selects, run to its end or to its first `raise`
(10_state.md R31). -/
def exec (i : Instr) (s : State) : Host.Outcome State Fault Refusal :=
  match i with
  | .gaPack main middle sub => Sys2Proof.Machine.execGaPack main middle sub s
  | .gaUnpack byte0 byte1 => Sys2Proof.Machine.execGaUnpack byte0 byte1 s
  | .iaPack area line device => Sys2Proof.Machine.execIaPack area line device s
  | .iaUnpack byte0 byte1 => Sys2Proof.Machine.execIaUnpack byte0 byte1 s
  | .hdrPack st tl => Sys2Proof.Machine.execHdrPack st tl s
  | .hdrUnpack n => Sys2Proof.Machine.execHdrUnpack n s
  | .tailPack ds apci value => Sys2Proof.Machine.execTailPack ds apci value s
  | .tailUnpack sb bN bN1 bN2 => Sys2Proof.Machine.execTailUnpack sb bN bN1 bN2 s
  | .treqPack ch seq mc main middle sub ds apci value => Sys2Proof.Machine.execTreqPack ch seq mc main middle sub ds apci value s
  | .treqUnpack n => Sys2Proof.Machine.execTreqUnpack n s

end Sys2Proof.Machine
end

