-- ==== Sys2Proof/Machine/Transaction.lean ====
section
/-! DEFINITION. The transaction (spec 10_state.md section 3) and the host's interactions (R40). -/

namespace Sys2Proof.Machine

/-- The unit's completion step on the latched command (10_state.md R31). A reserved opcode raises IllegalOperation and
reads nothing (30_encoding.md R71). -/
def unitStep (s : State) : Host.Outcome State Fault Refusal :=
  match decode s.cmd with
  | .ok i => exec i s
  | .error _ => .next (s.takeError .illegalOperation)

/-- The host writes `IN[a]` (10_state.md R36). While `BUSY = 1` this records HOST_IN_WRITE_WHILE_BUSY, and the byte holds
a free value from then on: whether the operation sees it is not defined (log 4). An address outside `IN` does not exist
(20_memory.md R46; log 12). -/
def hostWriteIn (a : Nat) (b : Byte) (s : State) : Host.Outcome State Fault Refusal :=
  if s.params.inCap ≤ a then .fault (.inAddressOutside a)
  else if s.busy then
    .next { s with
      inBuf := Memory.set inBlank s.inBuf a (Config.freeByte s.draws)
      faults := { s.faults with hostInWriteWhileBusy := true }
      draws := s.draws + 1 }
  else .next { s with inBuf := Memory.set inBlank s.inBuf a b }

/-- The host issues a command (10_state.md R30). -/
def hostIssue (cmd : CmdWord) (s : State) : Host.Outcome State Fault Refusal :=
  if s.busy then .refused .issueWhileBusy
  else .next { s with cmd := cmd, busy := true, respValid := false }

/-- The host waits: it gets back BUSY and RESP_VALID, and the unit does nothing (10_state.md R40). -/
def hostWait (s : State) : Host.Outcome State Fault Refusal :=
  .next { s with replies := .flags s.busy s.respValid :: s.replies }

/-- The host reads the response (10_state.md R35). -/
def hostReadResponse (s : State) : Host.Outcome State Fault Refusal :=
  if s.respValid then .next { s with replies := .response s.resp :: s.replies }
  else .refused .readWhileNotValid

/-- The host resets the block (10_state.md R39, 70_reset_and_hazards.md R170 to R172). A transaction in flight is
abandoned (R171). The parameters are not reset (R39). FAULT keeps its names, because no step ever removes one (R42;
DEDUCED, log 8). What belongs to the host stays: its further turns and its replies. -/
def hostReset (s : State) : Host.Outcome State Fault Refusal :=
  .next { State.reset with
    params := s.params, faults := s.faults, agenda := s.agenda, replies := s.replies, draws := s.draws }

/-- One host interaction (10_state.md R40). -/
def hostStep (a : HostAction) (s : State) : Host.Outcome State Fault Refusal :=
  match a with
  | .writeIn addr b => hostWriteIn addr b s
  | .issue cmd => hostIssue cmd s
  | .wait => hostWait s
  | .readResponse => hostReadResponse s
  | .reset => hostReset s

/-- The last completed transaction ended in an error, and its response is still valid (60_exceptions.md R145). -/
def State.afterError (s : State) : Bool := s.respValid && s.resp.status != statusOk

/-- What the host can read again after an error (60_exceptions.md R145): the command word stays in CMD and the input in IN.
None where no valid response holds an error, and none at an address that is none of IN's. This is a view of a state: no
step makes it, so the host's interactions stay the five of 10_state.md R40 (DESIGN CHOICE, log 18). -/
def State.readAgain (s : State) (o : HostLook) : Option HostSight :=
  if s.afterError then
    match o with
    | .command => some (.command s.cmd)
    | .inByte a => if s.params.inCap ≤ a then none else some (.inByte (s.inByte a))
  else none

/-- The unit's turn: a completion while `BUSY = 1`, nothing otherwise (10_state.md R31, 60_exceptions.md R159). -/
def unitTurn (s : State) : Host.Outcome State Fault Refusal := if s.busy then unitStep s else .next s

/-- The next turn of the agenda. When no turn is left the unit moves alone: a pending completion happens (the weak
fairness of 10_state.md R31), and an idle block keeps its state (60_exceptions.md R159). -/
def takeTurn (s : State) : Host.Outcome State Fault Refusal :=
  match s.agenda with
  | [] => unitTurn s
  | .unit :: rest => unitTurn { s with agenda := rest }
  | .host a :: rest => hostStep a { s with agenda := rest }

/-- The state with a command latched and its completion next (see `State.withFetchWord`; log 10). -/
def State.withPending (s : State) (cmd : CmdWord) : State :=
  { s with cmd := cmd, busy := true, respValid := false, agenda := .unit :: s.agenda }

end Sys2Proof.Machine
end

