-- ==== Sys2Proof/Machine/Step.lean ====
section
/-! DEFINITION. One step of the machine, and how a command comes to be the next one it runs. -/

namespace Sys2Proof.Machine

/-- One step: the next turn, the host's or the unit's (spec 10_state.md R30, R31, R40). -/
def step (s : State) : Host.Outcome State Fault Refusal := takeTurn s

/-- The state whose very next step runs the instruction `w`: the block fetches nothing (10_state.md R28), so the command
stands latched as an issue leaves it (R30), with the unit's turn first (log 10). -/
def State.withFetchWord (s : State) (nbits w : Nat) : State := s.withPending (BitVec.ofNat 80 (w % 2 ^ nbits))

end Sys2Proof.Machine
end

