-- ==== Sys2Proof/Machine/Assembler.lean ====
section
/-! DEFINITION. The assembler (spec 30_encoding.md R74 to R77): a line of text to a command word. It is tooling beside
the unit, which never sees text (00_scope.md R6). Text is a list of characters. -/

namespace Sys2Proof.Machine

/-- Why the assembler refuses a line (30_encoding.md R74 to R76). -/
inductive AsmError where
  /-- The mnemonic is none of R74's and no pseudo-instruction of R76. -/
  | unknownMnemonic
  /-- The operands are not those of a form of R74 or R76. -/
  | badForm
  /-- An operand is no decimal or hexadecimal literal (R75). -/
  | badLiteral
  /-- A literal does not fit its operand's width (R75). -/
  | outOfWidth
  /-- An address text has other than three segments (R76; AddressFormatError of 60_exceptions.md R145). -/
  | segmentCount
deriving DecidableEq, Repr

/-- The names a line can begin with: the ten mnemonics of 30_encoding.md R74, and the pseudo-instructions of R76 that
have a name of their own. -/
inductive AsmName where
  | gaPack | gaUnpack | iaPack | iaUnpack | hdrPack | hdrUnpack | tailPack | tailUnpack | treqPack | treqUnpack
  | treqWrite | treqRead | treqResponse
deriving DecidableEq, Repr

/-- An operand as written: a number, or a quoted text (R76). -/
inductive AsmOperand where
  | num (n : Nat)
  | text (cs : List Char)
deriving DecidableEq, Repr

/-- A blank of a line (DESIGN CHOICE, log 15). -/
def isBlank (c : Char) : Bool := c == ' ' || c == '\t'

/-- A text without blanks at its ends. -/
def trimText (cs : List Char) : List Char := ((cs.dropWhile isBlank).reverse.dropWhile isBlank).reverse

/-- The pieces of a text between separators. -/
def splitText (sep : Char) : List Char → List (List Char)
  | [] => [[]]
  | c :: rest =>
    if c == sep then [] :: splitText sep rest
    else match splitText sep rest with
      | [] => [[c]]
      | piece :: more => (c :: piece) :: more

/-- The value of a digit in base 10 or 16. -/
def digitValue (base : Nat) (c : Char) : Option Nat :=
  let n := c.toNat
  let d :=
    if 48 ≤ n ∧ n ≤ 57 then some (n - 48)
    else if 97 ≤ n ∧ n ≤ 102 then some (n - 87)
    else if 65 ≤ n ∧ n ≤ 70 then some (n - 55)
    else none
  match d with
  | some v => if v < base then some v else none
  | none => none

/-- The number digits spell after what `acc` holds already. -/
def digitsValue (base : Nat) : Nat → List Char → Option Nat
  | acc, [] => some acc
  | acc, c :: rest =>
    match digitValue base c with
    | some d => digitsValue base (acc * base + d) rest
    | none => none

/-- A literal: decimal, or hexadecimal with `0x` (30_encoding.md R75). -/
def literalValue : List Char → Option Nat
  | [] => none
  | '0' :: 'x' :: [] => none
  | '0' :: 'x' :: ds => digitsValue 16 0 ds
  | ds => digitsValue 10 0 ds

/-- The character that opens and closes an address text, the double quote. -/
def quoteMark : Char := Char.ofNat 34

/-- One operand of a line. -/
def parseOperand (cs : List Char) : Except AsmError AsmOperand :=
  match cs with
  | [] => .error .badForm
  | c :: rest =>
    if c == quoteMark then
      match rest.reverse with
      | last :: body => if last == quoteMark then .ok (.text body.reverse) else .error .badForm
      | [] => .error .badForm
    else match literalValue cs with
      | some n => .ok (.num n)
      | none => .error .badLiteral

/-- An 8-bit operand (30_encoding.md R75). -/
def asmByte (n : Nat) : Except AsmError Byte := if n < 256 then .ok (BitVec.ofNat 8 n) else .error .outOfWidth

/-- A 16-bit operand (30_encoding.md R75). -/
def asmHalf (n : Nat) : Except AsmError Half := if n < 65536 then .ok (BitVec.ofNat 16 n) else .error .outOfWidth

/-- One segment of an address text. -/
def asmSegment (cs : List Char) : Except AsmError Byte :=
  match literalValue cs with
  | some n => asmByte n
  | none => .error .badLiteral

/-- The three segments of an address text (30_encoding.md R76). -/
def asmSegments (sep : Char) (cs : List Char) : Except AsmError (Byte × Byte × Byte) :=
  match splitText sep cs with
  | [a, b, c] => do
    let a ← asmSegment a
    let b ← asmSegment b
    let c ← asmSegment c
    .ok (a, b, c)
  | _ => .error .segmentCount

/-- The message code the assembler supplies (30_encoding.md R76, 42_tunnelling.md R126). -/
def defaultMessageCode : Byte := 0x11#8

/-- The sequence counter the assembler supplies (30_encoding.md R76). -/
def defaultSequenceCounter : Byte := 0#8

/-- The pseudo-instructions `treq_write`, `treq_read` and `treq_response`, by the command code they stand for
(30_encoding.md R76). -/
def asmTreq (apci : Byte) (ch : Nat) (dest : List Char) (ds value : Nat) : Except AsmError Instr := do
  let ch ← asmByte ch
  let (main, middle, sub) ← asmSegments '/' dest
  let ds ← asmByte ds
  let value ← asmByte value
  .ok (.treqPack ch defaultSequenceCounter defaultMessageCode main middle sub ds apci value)

/-- How each name is written (30_encoding.md R74, R76). -/
def asmNames : List (List Char × AsmName) :=
  [("ga_pack".toList, .gaPack), ("ga_unpack".toList, .gaUnpack), ("ia_pack".toList, .iaPack),
    ("ia_unpack".toList, .iaUnpack), ("hdr_pack".toList, .hdrPack), ("hdr_unpack".toList, .hdrUnpack),
    ("tail_pack".toList, .tailPack), ("tail_unpack".toList, .tailUnpack), ("treq_pack".toList, .treqPack),
    ("treq_unpack".toList, .treqUnpack)]
  ++ [("treq_write".toList, .treqWrite), ("treq_read".toList, .treqRead), ("treq_response".toList, .treqResponse)]

/-- The ten command forms (30_encoding.md R74) and the five pseudo-instructions (R76). -/
def assemble (name : AsmName) (operands : List AsmOperand) : Except AsmError Instr :=
  match name, operands with
  | .gaPack, [.num a, .num b, .num c] => do .ok (.gaPack (← asmByte a) (← asmByte b) (← asmByte c))
  | .gaPack, [.text t] => do
    let (a, b, c) ← asmSegments '/' t
    .ok (.gaPack a b c)
  | .gaUnpack, [.num a, .num b] => do .ok (.gaUnpack (← asmByte a) (← asmByte b))
  | .iaPack, [.num a, .num b, .num c] => do .ok (.iaPack (← asmByte a) (← asmByte b) (← asmByte c))
  | .iaPack, [.text t] => do
    let (a, b, c) ← asmSegments '.' t
    .ok (.iaPack a b c)
  | .iaUnpack, [.num a, .num b] => do .ok (.iaUnpack (← asmByte a) (← asmByte b))
  | .hdrPack, [.num st, .num tl] => do .ok (.hdrPack (← asmHalf st) (← asmHalf tl))
  | .hdrUnpack, [.num n] => do .ok (.hdrUnpack (← asmHalf n))
  | .tailPack, [.num a, .num b, .num c] => do .ok (.tailPack (← asmByte a) (← asmByte b) (← asmByte c))
  | .tailUnpack, [.num a, .num b, .num c, .num d] => do
    .ok (.tailUnpack (← asmByte a) (← asmByte b) (← asmByte c) (← asmByte d))
  | .treqPack, [.num ch, .num seq, .num mc, .num main, .num middle, .num sub, .num ds, .num apci, .num value] => do
    .ok (.treqPack (← asmByte ch) (← asmByte seq) (← asmByte mc) (← asmByte main) (← asmByte middle) (← asmByte sub)
      (← asmByte ds) (← asmByte apci) (← asmByte value))
  | .treqUnpack, [.num n] => do .ok (.treqUnpack (← asmHalf n))
  | .treqWrite, [.num ch, .text dest, .num ds, .num value] => asmTreq 2#8 ch dest ds value
  | .treqRead, [.num ch, .text dest, .num ds] => asmTreq 0#8 ch dest ds 0
  | .treqResponse, [.num ch, .text dest, .num ds, .num value] => asmTreq 1#8 ch dest ds value
  | _, _ => .error .badForm

/-- The operands of a line, separated by commas (30_encoding.md R74). -/
def parseOperands (cs : List Char) : Except AsmError (List AsmOperand) :=
  if cs.isEmpty then .ok [] else ((splitText ',' cs).map trimText).mapM parseOperand

/-- One line: a command, or none where it holds only a comment or blanks (30_encoding.md R74). -/
def assembleLine (line : List Char) : Except AsmError (Option Instr) :=
  let code := trimText (line.takeWhile (· != '#'))
  if code.isEmpty then .ok none
  else do
    let name ← match asmNames.lookup (code.takeWhile fun c => !isBlank c) with
      | some name => .ok name
      | none => .error .unknownMnemonic
    let operands ← parseOperands (trimText (code.dropWhile fun c => !isBlank c))
    let i ← assemble name operands
    .ok (some i)

/-- The command words of a program, or the number of the first line refused, counted from 0, and why (30_encoding.md
R75: "refuses any other value, by line"). -/
def assembleProgram : Nat → List (List Char) → Except (Nat × AsmError) (List CmdWord)
  | _, [] => .ok []
  | k, line :: rest =>
    match assembleLine line with
    | .error e => .error (k, e)
    | .ok none => assembleProgram (k + 1) rest
    | .ok (some i) =>
      match assembleProgram (k + 1) rest with
      | .ok ws => .ok (encode i :: ws)
      | .error e => .error e

end Sys2Proof.Machine
end

