-- ==== Sys2Proof/Machine/Instances.lean ====
section
/-! DEFINITION. Several blocks (spec 10_state.md R43, 20_memory.md R64, 60_exceptions.md R157): each has its own copy of
every piece of state, and they share nothing. -/

namespace Sys2Proof.Machine

/-- One block of several takes a step; which one is the host's choice (60_exceptions.md R157; log 14). None where there
is no such block or its step is no next state. -/
def stepInstance : List State → Nat → Option (List State)
  | [], _ => none
  | s :: rest, 0 =>
    match step s with
    | .next t => some (t :: rest)
    | .fault _ => none
    | .refused _ => none
  | s :: rest, k + 1 => (stepInstance rest k).map (s :: ·)

end Sys2Proof.Machine
end

