-- ==== Sys2Proof/WellFormed.lean ====
section
/-! DEFINITION. Which parameters make a block (spec 70_reset_and_hazards.md R174) and which operands lie in the source's
ranges (30_encoding.md R79). -/

namespace Sys2Proof

/-- A block is well formed only if its parameters meet these constraints (70_reset_and_hazards.md R174). That `0x9999`
is no known tag is 41_header.md R101 ("not known under every admitted choice"; DEDUCED, log 11). -/
def Params.wellFormed (p : Params) : Bool :=
  decide (22 ≤ p.inCap) && p.knownTags.contains Config.tunnellingRequestTag && !p.knownTags.contains 0x9999#16
    && (p.dsDecodeMask == 0x0F#8 || p.dsDecodeMask == 0xFF#8)

/-- A group address in range (40_address.md R85). -/
def gaInRange (main middle : Byte) : Bool := decide (main ≤ 31#8) && decide (middle ≤ 7#8)

/-- An individual address in range (40_address.md R86). -/
def iaInRange (area line : Byte) : Bool := decide (area ≤ 15#8) && decide (line ≤ 15#8)

/-- A data size and a command code in range (00_scope.md R3, R8). -/
def tailInRange (dataSize apci : Byte) : Bool :=
  (dataSize == 1#8 || dataSize == 2#8) && decide (apci ≤ 15#8)

/-- Every operand lies in the range the source gives it (30_encoding.md R79). This is no decode check: an instruction
outside it is decoded and runs, and its operation raises the error. -/
def Instr.wellFormed : Instr → Bool
  | .gaPack main middle _ => gaInRange main middle
  | .gaUnpack _ _ => true
  | .iaPack area line _ => iaInRange area line
  | .iaUnpack _ _ => true
  | .hdrPack _ _ => true
  | .hdrUnpack _ => true
  | .tailPack ds apci _ => tailInRange ds apci
  | .tailUnpack _ _ _ _ => true
  | .treqPack _ _ _ main middle _ ds apci _ => gaInRange main middle && tailInRange ds apci
  | .treqUnpack _ => true

end Sys2Proof
end

