-- ==== Sys2Proof/Safety.lean ====
section
/-! DEFINITION. What counts as a good run (spec 10_state.md R44) and what every state of a run keeps. -/

namespace Sys2Proof

/-- FAULT is empty (10_state.md R42). -/
def Machine.FaultSet.isEmpty (f : Machine.FaultSet) : Bool := !f.unwrittenInRead && !f.hostInWriteWhileBusy

/-- A good final state: `BUSY = 0`, no turn left, FAULT empty (10_state.md R44). That no host step was refused is that
the run reached a state at all. -/
def Machine.State.goodFinal (s : Machine.State) : Bool := !s.busy && s.agenda.isEmpty && s.faults.isEmpty

/-- A run of `n` steps ends well (10_state.md R44). -/
def endsWell (n : Nat) (s : Machine.State) : Bool :=
  match core.run n s with
  | .next t => t.goodFinal
  | .fault _ => false
  | .refused _ => false

namespace Machine

/-- The bytes of `OUT` from OUT_LEN on are zero (10_state.md R32). -/
def Response.zeroPastOutLen (r : Response) : Bool := r.out.all fun c => decide (c.1 < r.outLen.toNat)

/-- A response as the spec defines it: a legal STATUS (10_state.md R23), a legal OUT_LEN (R24), nothing in OUT past it
(R32), and nothing at all but the code after an error (R33). -/
def Response.legal (r : Response) : Bool :=
  legalStatus r.status && legalOutLen r.outLen && r.zeroPastOutLen
    && (r.status == statusOk || r == { status := r.status })

/-- The invariant of the machine: well-formed parameters, both buffers in canonical form inside their spaces, BUSY and
RESP_VALID never both set (10_state.md R25, R26), and, as long as no unwritten byte was read, a legal response. The last
clause says nothing of a response the spec does not define (60_exceptions.md R152). -/
def State.inv (s : State) : Bool :=
  s.params.wellFormed && Memory.wf inBlank s.params.inCap s.inBuf && Memory.wf outBlank Config.outCap s.resp.out
    && !(s.busy && s.respValid) && (s.faults.unwrittenInRead || s.resp.legal)

end Machine
end Sys2Proof
end

