-- ==== Sys2Proof/Certificates/Slice0/Obligations.lean ====
section
/-! DEFINITION. The statements for the provers. A docstring names the rule of spec/ its statement formalises. -/

namespace Sys2Proof.Claims

open Sys2Proof.Machine

/-- The part of the machine a completion leaves alone, and the handshake it makes (10_state.md R31): the parameters,
CMD, every byte of IN, FAULT, the host's turns and replies and the count of free values are as before, `BUSY` is clear
and `RESP_VALID` is set. Only the response fields may differ. -/
def Completed (s t : State) : Prop :=
  t.busy = false ∧ t.respValid = true ∧ t.params = s.params ∧ t.cmd = s.cmd ∧ (∀ a, t.inByte a = s.inByte a)
    ∧ t.inBuf = s.inBuf ∧ t.faults = s.faults ∧ t.agenda = s.agenda ∧ t.replies = s.replies ∧ t.draws = s.draws

/-- A success response (10_state.md R32): STATUS 0x00, OUT holding exactly these bytes and zero after them, and these
results. -/
def Succeeds (t : State) (bytes : List Byte) (results : Results) : Prop :=
  t.resp.status = 0x00#8 ∧ t.resp.outLen.toNat = bytes.length ∧ (∀ a, t.resp.outByte a = bytes.getD a 0#8)
    ∧ t.resp.results = results

/-- An error response (10_state.md R33): the code, and every other response field zero. -/
def Errs (t : State) (code : Byte) : Prop :=
  t.resp.status = code ∧ t.resp.outLen = 0#8 ∧ (∀ a, t.resp.outByte a = 0#8)
    ∧ t.resp.results = ⟨0#8, 0#8, 0#8, 0#8, 0#8, 0#8, 0#8, 0#8, 0#8⟩

/-- The instruction completes with these output bytes and results, and changes nothing else. -/
def CompletesWith (i : Instr) (s : State) (bytes : List Byte) (results : Results) : Prop :=
  ∃ t, exec i s = .next t ∧ Succeeds t bytes results ∧ Completed s t

/-- The instruction completes with this error code, and changes nothing else. -/
def CompletesInError (i : Instr) (s : State) (code : Byte) : Prop :=
  ∃ t, exec i s = .next t ∧ Errs t code ∧ Completed s t

/-- The instruction completes having read an unwritten byte of IN (10_state.md R41, R42): UNWRITTEN_IN_READ is in FAULT,
the other name is as before, nothing is said of the response (60_exceptions.md R152), and the rest is as before. -/
def RecordsUnwrittenRead (i : Instr) (s : State) : Prop :=
  ∃ t, exec i s = .next t ∧ t.faults = { s.faults with unwrittenInRead := true } ∧ t.busy = false ∧ t.respValid = true
    ∧ t.params = s.params ∧ t.cmd = s.cmd ∧ t.inBuf = s.inBuf ∧ t.agenda = s.agenda ∧ t.replies = s.replies

/-- `CMD[7:0]`, the opcode of a command word (30_encoding.md R66). -/
def OP (w : CmdWord) : Byte := w.extractLsb' 0 8

/-- `Fi = CMD[8*i+15 : 8*i+8]` (10_state.md R21). -/
def F (w : CmdWord) (i : Nat) : Byte := w.extractLsb' (8 * i + 8) 8

/-- A block the spec admits (70_reset_and_hazards.md R174). -/
def Admitted (s : State) : Prop := s.params.wellFormed = true

/-- The operation used no free value: it read no unwritten byte, so its response is one the spec defines. -/
def Defined (s t : State) : Prop := t.draws = s.draws

/-- The bytes of OUT up to OUT_LEN after a step that answers a next state; none after any other. -/
def outputOf (o : Host.Outcome State Fault Refusal) : List Byte :=
  match o with
  | .next t => t.resp.outBytes
  | .fault _ => []
  | .refused _ => []

/-- STATUS after a step that answers a next state. -/
def statusOf (o : Host.Outcome State Fault Refusal) : Option Byte :=
  match o with
  | .next t => some t.resp.status
  | .fault _ => none
  | .refused _ => none

/-- The error codes each operation can raise, the table of 60_exceptions.md R146. -/
def canRaise : Instr → List Byte
  | .gaPack _ _ _ => [0x02#8]
  | .gaUnpack _ _ => []
  | .iaPack _ _ _ => [0x02#8]
  | .iaUnpack _ _ => []
  | .hdrPack _ _ => []
  | .hdrUnpack _ => [0x03#8, 0x04#8]
  | .tailPack _ _ _ => [0x05#8, 0x02#8]
  | .tailUnpack _ _ _ _ => [0x05#8]
  | .treqPack _ _ _ _ _ _ _ _ _ => [0x02#8, 0x05#8]
  | .treqUnpack _ => [0x03#8, 0x04#8, 0x05#8]

/-- How many operand fields the operation of an opcode reads, always F0 and the following ones: the table of
30_encoding.md R67. -/
def usedFields (op : Byte) : Nat :=
  if op = 0x01#8 then 3 else if op = 0x02#8 then 2 else if op = 0x03#8 then 3 else if op = 0x04#8 then 2
  else if op = 0x10#8 then 4 else if op = 0x11#8 then 2 else if op = 0x20#8 then 3 else if op = 0x21#8 then 4
  else if op = 0x30#8 then 9 else if op = 0x31#8 then 2 else 0

/-- The ten opcodes of 30_encoding.md R70. -/
def opcodes : List Byte :=
  [0x01#8, 0x02#8, 0x03#8, 0x04#8, 0x10#8, 0x11#8, 0x20#8, 0x21#8, 0x30#8, 0x31#8]

/-- The frame of a TunnellingRequest, byte by byte as 42_tunnelling.md R115 lays it out. -/
def frameBytes (ch seq mc main middle sub ds apci value : Byte) : List Byte :=
  [0x06#8, 0x10#8, 0x04#8, 0x20#8, 0x00#8, 20#8 + ds, 0x04#8, ch, seq, 0x00#8, mc, 0x00#8, 0xBC#8, 0xE0#8, 0x00#8, 0x00#8,
    main <<< 3 ||| middle, sub, ds, apci >>> 2]
    ++ (if ds = 1#8 then [(apci &&& 3#8) <<< 6 ||| (value &&& 1#8)] else [(apci &&& 3#8) <<< 6, value])

/-- A number as an 8-bit operand. -/
def byte (n : Nat) : Byte := BitVec.ofNat 8 n

/-- A number as a 16-bit operand. -/
def half (n : Nat) : Half := BitVec.ofNat 16 n

/-- Every number lies in `0..255`, the width of an 8-bit operand (30_encoding.md R75). -/
def FitByte (ns : List Nat) : Prop := ∀ n ∈ ns, n < 256

/-- Every number lies in `0..65535`, the width of a 16-bit operand (30_encoding.md R75). -/
def FitHalf (ns : List Nat) : Prop := ∀ n ∈ ns, n < 65536

/-- The operands assemble to this instruction if they fit, and are refused for their width otherwise. -/
def AssemblesIf (fits : Prop) (name : AsmName) (operands : List AsmOperand) (i : Instr) : Prop :=
  (fits → assemble name operands = .ok i) ∧ (¬ fits → assemble name operands = .error .outOfWidth)

end Sys2Proof.Claims

open Sys2Proof Sys2Proof.Machine Sys2Proof.Claims

/-! ### Encoding -/

/-- 30_encoding.md R66, R67, R70, R77: decoding an encoded instruction gives it back, for every operand. -/
def Obligations.DecodeOfEncodeIsTheInstruction : Prop := ∀ i : Instr, decode (encode i) = .ok i

/-- The example words of 30_encoding.md R77, and one word of every other family, read off the field table R66. -/
def Obligations.SpecWordsDecode : Prop :=
  decode 0x0000000000000A040101#80 = .ok (.gaPack 1#8 4#8 10#8)
  ∧ decode 0x0102010A040111000730#80 = .ok (.treqPack 7#8 0#8 0x11#8 1#8 4#8 10#8 1#8 2#8 1#8)
  ∧ decode 0x00000000000000150011#80 = .ok (.hdrUnpack 21#16)
  ∧ decode 0x000000000000C1030121#80 = .ok (.tailUnpack 1#8 3#8 0xC1#8 0#8)

/-- 30_encoding.md R70, R71, R73: the decoder gives an operation exactly for the ten opcodes, by `CMD[7:0]` alone. -/
def Obligations.DecodeAcceptsExactlyTheTenOpcodes : Prop :=
  (∀ w : CmdWord, opcodes.contains (OP w) = true → ∃ i, decode w = .ok i ∧ i.opcode = OP w)
  ∧ (∀ w : CmdWord, opcodes.contains (OP w) = false →
      decode w = .error (.reservedOpcode (OP w)))

/-- 30_encoding.md R71: a reserved opcode completes with IllegalOperation (0x07), whatever the fields and whatever IN
holds. -/
def Obligations.ReservedOpcodeRaisesIllegalOperation : Prop :=
  ∀ (s : State) (rest : List Turn), s.busy = true → opcodes.contains (OP s.cmd) = false →
    (s.agenda = [] ∧ rest = []) ∨ s.agenda = .unit :: rest →
    ∃ t, step s = .next t ∧ Errs t 0x07#8 ∧ Completed { s with agenda := rest } t

/-- 30_encoding.md R72: two command words that agree on the opcode and on the fields its operation reads decode alike,
so that an ignored field changes no response. -/
def Obligations.IgnoredFieldsChangeNothing : Prop :=
  ∀ w w' : CmdWord, OP w = OP w' →
    (∀ i, i < usedFields (OP w) → F w i = F w' i) →
    ∀ s : State, unitStep { s with cmd := w } = (match unitStep { s with cmd := w' } with
      | .next t => .next { t with cmd := w }
      | .fault f => .fault f
      | .refused r => .refused r)

/-- 20_memory.md R51: the byte view of a command word, and that the decoder of a byte sequence consumes exactly ten bytes
(30_encoding.md R65). -/
def Obligations.ByteViewOfTheCommandWord : Prop :=
  (∀ w : CmdWord, bytesOfWord w = OP w :: (List.range 9).map fun i => F w i)
  ∧ (∀ (i : Instr) (rest : List Byte), decodeBytes (bytesOfWord (encode i) ++ rest) = .ok (i, rest))

/-! ### The address unit -/

/-- 40_address.md R87, whole: GA_PACK's bytes, and RangeError exactly when `main > 31` or `middle > 7`. -/
def Obligations.GaPackWritesTheWireBytes : Prop :=
  (∀ w : CmdWord, OP w = 0x01#8 → decode w = .ok (.gaPack (F w 0) (F w 1) (F w 2)))
  ∧ ∀ (main middle sub : Byte) (s : State),
    (main ≤ 31#8 → middle ≤ 7#8 →
      CompletesWith (.gaPack main middle sub) s [main <<< 3 ||| middle, sub] {})
    ∧ (31#8 < main ∨ 7#8 < middle → CompletesInError (.gaPack main middle sub) s 0x02#8)

/-- 40_address.md R88, whole: GA_UNPACK's results. -/
def Obligations.GaUnpackSplitsTheWireBytes : Prop :=
  (∀ w : CmdWord, OP w = 0x02#8 → decode w = .ok (.gaUnpack (F w 0) (F w 1)))
  ∧ ∀ (byte0 byte1 : Byte) (s : State),
    CompletesWith (.gaUnpack byte0 byte1) s [] { r0 := byte0 >>> 3, r1 := byte0 &&& 7#8, r2 := byte1 }

/-- 40_address.md R89, whole: IA_PACK's bytes, and RangeError exactly when `area > 15` or `line > 15`. -/
def Obligations.IaPackWritesTheWireBytes : Prop :=
  (∀ w : CmdWord, OP w = 0x03#8 → decode w = .ok (.iaPack (F w 0) (F w 1) (F w 2)))
  ∧ ∀ (area line device : Byte) (s : State),
    (area ≤ 15#8 → line ≤ 15#8 →
      CompletesWith (.iaPack area line device) s [area <<< 4 ||| line, device] {})
    ∧ (15#8 < area ∨ 15#8 < line → CompletesInError (.iaPack area line device) s 0x02#8)

/-- 40_address.md R90, whole: IA_UNPACK's results. -/
def Obligations.IaUnpackSplitsTheWireBytes : Prop :=
  (∀ w : CmdWord, OP w = 0x04#8 → decode w = .ok (.iaUnpack (F w 0) (F w 1)))
  ∧ ∀ (byte0 byte1 : Byte) (s : State),
    CompletesWith (.iaUnpack byte0 byte1) s [] { r0 := byte0 >>> 4, r1 := byte0 &&& 15#8, r2 := byte1 }

/-- 40_address.md R91: the GroupAddress round trip. -/
def Obligations.GroupAddressRoundTrip : Prop :=
  ∀ (main middle sub : Byte) (s s' : State), main ≤ 31#8 → middle ≤ 7#8 →
    ∃ t, exec (.gaPack main middle sub) s = .next t ∧ t.resp.status = 0x00#8
      ∧ CompletesWith (.gaUnpack (t.resp.outByte 0) (t.resp.outByte 1)) s' [] { r0 := main, r1 := middle, r2 := sub }

/-- 40_address.md R92: the IndividualAddress round trip. -/
def Obligations.IndividualAddressRoundTrip : Prop :=
  ∀ (area line device : Byte) (s s' : State), area ≤ 15#8 → line ≤ 15#8 →
    ∃ t, exec (.iaPack area line device) s = .next t ∧ t.resp.status = 0x00#8
      ∧ CompletesWith (.iaUnpack (t.resp.outByte 0) (t.resp.outByte 1)) s' [] { r0 := area, r1 := line, r2 := device }

/-- 40_address.md R93: unpack and then pack gives any two bytes back, so each hierarchy covers every 16-bit value exactly
once. -/
def Obligations.BothWireFormsAreBijective : Prop :=
  ∀ (b0 b1 : Byte) (s s' : State),
    (∃ t, exec (.gaUnpack b0 b1) s = .next t
      ∧ CompletesWith (.gaPack t.resp.results.r0 t.resp.results.r1 t.resp.results.r2) s' [b0, b1] {})
    ∧ (∃ t, exec (.iaUnpack b0 b1) s = .next t
      ∧ CompletesWith (.iaPack t.resp.results.r0 t.resp.results.r1 t.resp.results.r2) s' [b0, b1] {})

/-! ### The header unit -/

/-- 41_header.md R102, whole: HDR_PACK's six bytes, for every service type and every length. -/
def Obligations.HdrPackWritesTheHeader : Prop :=
  (∀ w : CmdWord, OP w = 0x10#8 → decode w = .ok (.hdrPack (F w 0 ++ F w 1) (F w 2 ++ F w 3)))
  ∧ ∀ (st tl : Half) (s : State),
    CompletesWith (.hdrPack st tl) s
      [0x06#8, 0x10#8, (st >>> 8).setWidth 8, st.setWidth 8, (tl >>> 8).setWidth 8, tl.setWidth 8] {}

/-- 41_header.md R103 for a frame whose six header bytes are written: LengthError below six bytes (no byte of IN needed),
UnsupportedServiceType for a tag not in KNOWN_TAGS, otherwise the six bytes as read (R104, R105 by their absence: no
other check). -/
def Obligations.HdrUnpackReadsTheHeader : Prop :=
  (∀ w : CmdWord, OP w = 0x11#8 → decode w = .ok (.hdrUnpack (F w 0 ++ F w 1)))
  ∧ ∀ (n : Half) (s : State), Admitted s →
    (n < 6#16 → CompletesInError (.hdrUnpack n) s 0x03#8)
    ∧ (∀ hl ver st1 st0 tl1 tl0 : Byte, 6#16 ≤ n → s.inByte 0 = some hl → s.inByte 1 = some ver →
        s.inByte 2 = some st1 → s.inByte 3 = some st0 → s.inByte 4 = some tl1 → s.inByte 5 = some tl0 →
        ((st1 ++ st0 : Half) ∉ s.params.knownTags → CompletesInError (.hdrUnpack n) s 0x04#8)
        ∧ ((st1 ++ st0 : Half) ∈ s.params.knownTags →
          CompletesWith (.hdrUnpack n) s [] { r0 := hl, r1 := ver, r2 := st1, r3 := st0, r4 := tl1, r5 := tl0 }))

/-- 41_header.md R106: the header round trip, and UnsupportedServiceType for a tag that is not known. -/
def Obligations.HeaderRoundTrip : Prop :=
  ∀ (st tl n : Half) (s : State), ∃ t, exec (.hdrPack st tl) s = .next t ∧
    ∀ s' : State, Admitted s' → 6#16 ≤ n → (∀ a, a < 6 → s'.inByte a = some (t.resp.outByte a)) →
      (st ∈ s'.params.knownTags → CompletesWith (.hdrUnpack n) s' []
        { r0 := 6#8, r1 := 0x10#8, r2 := (st >>> 8).setWidth 8, r3 := st.setWidth 8, r4 := (tl >>> 8).setWidth 8,
          r5 := tl.setWidth 8 })
      ∧ (st ∉ s'.params.knownTags → CompletesInError (.hdrUnpack n) s' 0x04#8)

/-! ### The tail engine -/

/-- 42_tunnelling.md R121, whole: TAIL_PACK's bytes, and its errors in the order of the fields. -/
def Obligations.TailPackPacksOrRaises : Prop :=
  (∀ w : CmdWord, OP w = 0x20#8 → decode w = .ok (.tailPack (F w 0) (F w 1) (F w 2)))
  ∧ ∀ (ds apci value : Byte) (s : State),
    (ds = 1#8 → apci ≤ 15#8 →
      CompletesWith (.tailPack ds apci value) s
        [0x01#8, apci >>> 2, (apci &&& 3#8) <<< 6 ||| (value &&& 1#8)] {})
    ∧ (ds = 2#8 → apci ≤ 15#8 →
      CompletesWith (.tailPack ds apci value) s [0x02#8, apci >>> 2, (apci &&& 3#8) <<< 6, value] {})
    ∧ (ds ≠ 1#8 → ds ≠ 2#8 → CompletesInError (.tailPack ds apci value) s 0x05#8)
    ∧ (ds = 1#8 ∨ ds = 2#8 → 15#8 < apci → CompletesInError (.tailPack ds apci value) s 0x02#8)

/-- 42_tunnelling.md R122, whole: TAIL_UNPACK's results, for either DS_DECODE_MASK. -/
def Obligations.TailUnpackUnpacksOrRaises : Prop :=
  (∀ w : CmdWord, OP w = 0x21#8 → decode w = .ok (.tailUnpack (F w 0) (F w 1) (F w 2) (F w 3)))
  ∧ ∀ (sb bN bN1 bN2 : Byte) (s : State),
    (sb &&& s.params.dsDecodeMask = 1#8 →
      CompletesWith (.tailUnpack sb bN bN1 bN2) s []
        { r0 := 1#8, r1 := (bN &&& 3#8) <<< 2 ||| bN1 >>> 6, r2 := bN1 &&& 1#8 })
    ∧ (sb &&& s.params.dsDecodeMask = 2#8 →
      CompletesWith (.tailUnpack sb bN bN1 bN2) s []
        { r0 := 2#8, r1 := (bN &&& 3#8) <<< 2 ||| bN1 >>> 6, r2 := bN2 })
    ∧ (sb &&& s.params.dsDecodeMask ≠ 1#8 → sb &&& s.params.dsDecodeMask ≠ 2#8 →
      CompletesInError (.tailUnpack sb bN bN1 bN2) s 0x05#8)

/-- 42_tunnelling.md R134: the tail round trip. -/
def Obligations.TailRoundTrip : Prop :=
  ∀ (ds apci value : Byte) (s s' : State), Admitted s' → ds = 1#8 ∨ ds = 2#8 → apci ≤ 15#8 →
    ∃ t, exec (.tailPack ds apci value) s = .next t ∧ t.resp.status = 0x00#8
      ∧ CompletesWith
          (.tailUnpack (t.resp.outByte 0) (t.resp.outByte 1) (t.resp.outByte 2)
            (if ds = 1#8 then 0#8 else t.resp.outByte 3)) s' []
          { r0 := ds, r1 := apci, r2 := if ds = 1#8 then value &&& 1#8 else value }

/-! ### The frame assembler and parser -/

/-- 42_tunnelling.md R128, whole: the frame TREQ_PACK builds, and its errors in the order of the fields. -/
def Obligations.TreqPackBuildsTheFrame : Prop :=
  (∀ w : CmdWord, OP w = 0x30#8 → decode w
    = .ok (.treqPack (F w 0) (F w 1) (F w 2) (F w 3) (F w 4) (F w 5) (F w 6) (F w 7) (F w 8)))
  ∧ ∀ (ch seq mc main middle sub ds apci value : Byte) (s : State),
    (main ≤ 31#8 → middle ≤ 7#8 → ds = 1#8 ∨ ds = 2#8 → apci ≤ 15#8 →
      CompletesWith (.treqPack ch seq mc main middle sub ds apci value) s
        (frameBytes ch seq mc main middle sub ds apci value) {})
    ∧ (31#8 < main ∨ 7#8 < middle →
      CompletesInError (.treqPack ch seq mc main middle sub ds apci value) s 0x02#8)
    ∧ (main ≤ 31#8 → middle ≤ 7#8 → ds ≠ 1#8 → ds ≠ 2#8 →
      CompletesInError (.treqPack ch seq mc main middle sub ds apci value) s 0x05#8)
    ∧ (main ≤ 31#8 → middle ≤ 7#8 → ds = 1#8 ∨ ds = 2#8 → 15#8 < apci →
      CompletesInError (.treqPack ch seq mc main middle sub ds apci value) s 0x02#8)

/-- 42_tunnelling.md R129: TREQ_PACK is the composition of the header packer, the fixed and passed bytes, the address
packer and the tail packer, and on invalid operands raises what the first failing part raises. -/
def Obligations.TreqPackIsAComposition : Prop :=
  ∀ (ch seq mc main middle sub ds apci value : Byte) (s : State)
      (frame header address tail : Host.Outcome State Fault Refusal),
    frame = exec (.treqPack ch seq mc main middle sub ds apci value) s →
    header = exec (.hdrPack 0x0420#16 (20#16 + ds.setWidth 16)) s →
    address = exec (.gaPack main middle sub) s → tail = exec (.tailPack ds apci value) s →
    (statusOf address = some 0x00#8 → statusOf tail = some 0x00#8 →
      statusOf frame = some 0x00#8
      ∧ outputOf frame = outputOf header
          ++ [0x04#8, ch, seq, 0x00#8, mc, 0x00#8, 0xBC#8, 0xE0#8, 0x00#8, 0x00#8]
          ++ outputOf address ++ outputOf tail)
    ∧ (statusOf address ≠ some 0x00#8 → statusOf frame = statusOf address)
    ∧ (statusOf address = some 0x00#8 → statusOf tail ≠ some 0x00#8 → statusOf frame = statusOf tail)

/-- 42_tunnelling.md R131: TREQ_UNPACK's checks in their order, each with only the bytes of IN read before it, and its
results. A tag that is not known and a known tag other than 0x0420 answer the same, since 0x0420 is always known. -/
def Obligations.TreqUnpackParsesTheFrame : Prop :=
  (∀ w : CmdWord, OP w = 0x31#8 → decode w = .ok (.treqUnpack (F w 0 ++ F w 1)))
  ∧ ∀ (n : Half) (s : State), Admitted s →
    (n < 6#16 → CompletesInError (.treqUnpack n) s 0x03#8)
    ∧ (∀ st1 st0 : Byte, 6#16 ≤ n → s.inByte 2 = some st1 → s.inByte 3 = some st0 →
        (st1 ++ st0 : Half) ≠ 0x0420#16 → CompletesInError (.treqUnpack n) s 0x04#8)
    ∧ (∀ tl1 tl0 : Byte, 6#16 ≤ n → s.inByte 2 = some 0x04#8 → s.inByte 3 = some 0x20#8 →
        s.inByte 4 = some tl1 → s.inByte 5 = some tl0 →
        ((tl1 ++ tl0 : Half) ≠ n → CompletesInError (.treqUnpack n) s 0x03#8)
        ∧ ((tl1 ++ tl0 : Half) = n → n < 19#16 → CompletesInError (.treqUnpack n) s 0x03#8)
        ∧ (∀ sb ds : Byte, (tl1 ++ tl0 : Half) = n → 19#16 ≤ n → s.inByte 18 = some sb →
            ds = sb &&& s.params.dsDecodeMask →
            (ds ≠ 1#8 → ds ≠ 2#8 → CompletesInError (.treqUnpack n) s 0x05#8)
            ∧ (ds = 1#8 ∨ ds = 2#8 → n ≠ 20#16 + ds.setWidth 16 → CompletesInError (.treqUnpack n) s 0x03#8)
            ∧ (∀ ch seq mc g0 g1 bN bN1 : Byte, n = 20#16 + ds.setWidth 16 →
                s.inByte 7 = some ch → s.inByte 8 = some seq → s.inByte 10 = some mc →
                s.inByte 16 = some g0 → s.inByte 17 = some g1 → s.inByte 19 = some bN → s.inByte 20 = some bN1 →
                (ds = 1#8 → CompletesWith (.treqUnpack n) s []
                  ⟨ch, seq, mc, g0 >>> 3, g0 &&& 7#8, g1, 1#8, (bN &&& 3#8) <<< 2 ||| bN1 >>> 6, bN1 &&& 1#8⟩)
                ∧ (∀ v : Byte, ds = 2#8 → s.inByte 21 = some v → CompletesWith (.treqUnpack n) s []
                  ⟨ch, seq, mc, g0 >>> 3, g0 &&& 7#8, g1, 2#8, (bN &&& 3#8) <<< 2 ||| bN1 >>> 6, v⟩))))

/-- 42_tunnelling.md R130: the bytes at 0, 1, 6, 9 and 11 to 15 are neither read nor checked: of two blocks whose inputs
differ only there, if one completes without reading an unwritten byte then so does the other, with the same response. -/
def Obligations.TreqUnpackIgnoresTheFixedBytes : Prop :=
  ∀ (n : Half) (s s' t : State), s'.params = s.params →
    (∀ a, a ∉ [0, 1, 6, 9, 11, 12, 13, 14, 15] → s'.inByte a = s.inByte a) →
    exec (.treqUnpack n) s = .next t → Defined s t →
    ∃ t', exec (.treqUnpack n) s' = .next t' ∧ Defined s' t' ∧ t'.resp = t.resp

/-- 42_tunnelling.md R135: the frame round trip. -/
def Obligations.FrameRoundTrip : Prop :=
  ∀ (ch seq mc main middle sub ds apci value : Byte) (s : State),
    main ≤ 31#8 → middle ≤ 7#8 → ds = 1#8 ∨ ds = 2#8 → apci ≤ 15#8 → (ds = 1#8 → value ≤ 1#8) →
    ∃ t, exec (.treqPack ch seq mc main middle sub ds apci value) s = .next t ∧ t.resp.status = 0x00#8 ∧
      ∀ s' : State, Admitted s' → (∀ a, a < t.resp.outLen.toNat → s'.inByte a = some (t.resp.outByte a)) →
        CompletesWith (.treqUnpack (t.resp.outLen.setWidth 16)) s' [] ⟨ch, seq, mc, main, middle, sub, ds, apci, value⟩

/-! ### Every operation -/

/-- 20_memory.md R54, R56 and 10_state.md R34: in an admitted block every operation completes on every operand and every
input, reading and writing no address that does not exist, with the frame of a completion: the response fields, BUSY,
RESP_VALID, and the record of an unwritten read are all it can change. That a command which reads an unwritten byte
completes too, with BUSY clear and RESP_VALID set, is the model's reading and no rule's: R34 excepts it (log 3). -/
def Obligations.EveryOperationCompletes : Prop :=
  ∀ (i : Instr) (s : State), Admitted s →
    ∃ t, exec i s = .next t ∧ t.busy = false ∧ t.respValid = true ∧ t.params = s.params ∧ t.cmd = s.cmd
      ∧ t.inBuf = s.inBuf ∧ t.agenda = s.agenda ∧ t.replies = s.replies
      ∧ t.faults.hostInWriteWhileBusy = s.faults.hostInWriteWhileBusy
      ∧ ((t.faults = s.faults ∧ t.draws = s.draws) ∨ t.faults.unwrittenInRead = true)

/-- 60_exceptions.md R146 (the table `canRaise`, and IllegalOperation for a reserved opcode alone): an operation whose
response is defined answers STATUS 0x00 or one of its own codes. -/
def Obligations.EachOperationRaisesOnlyItsCodes : Prop :=
  (∀ (i : Instr) (s t : State), exec i s = .next t → Defined s t →
    t.resp.status = 0x00#8 ∨ t.resp.status ∈ canRaise i)
  ∧ (∀ s t : State, unitStep s = .next t → Defined s t →
    (t.resp.status = 0x07#8 ↔ opcodes.contains (OP s.cmd) = false))

/-- 30_encoding.md R79: a pack operation succeeds exactly when its operands lie in the source's ranges. -/
def Obligations.PackSucceedsExactlyInRange : Prop :=
  ∀ s : State,
    (∀ main middle sub, statusOf (exec (.gaPack main middle sub) s) = some 0x00#8
      ↔ (Instr.gaPack main middle sub).wellFormed = true)
    ∧ (∀ area line device, statusOf (exec (.iaPack area line device) s) = some 0x00#8
      ↔ (Instr.iaPack area line device).wellFormed = true)
    ∧ (∀ ds apci value, statusOf (exec (.tailPack ds apci value) s) = some 0x00#8
      ↔ (Instr.tailPack ds apci value).wellFormed = true)
    ∧ (∀ ch seq mc main middle sub ds apci value,
      statusOf (exec (.treqPack ch seq mc main middle sub ds apci value) s) = some 0x00#8
      ↔ (Instr.treqPack ch seq mc main middle sub ds apci value).wellFormed = true)

/-- 10_state.md R33: after an error no partial result remains. -/
def Obligations.ErrorLeavesNoPartialResult : Prop :=
  ∀ (i : Instr) (s t : State), exec i s = .next t → Defined s t → t.resp.status ≠ 0x00#8 →
    Errs t t.resp.status ∧ Completed s t

/-- 10_state.md R41: an operation that reads a byte of IN the host has not written records UNWRITTEN_IN_READ. HDR_UNPACK
reads bytes 0 to 5; TREQ_UNPACK reads the tag, the length, the size byte and the fields in the order of its checks. That
the machine then goes on, with BUSY clear and RESP_VALID set, is the model's reading (log 3). -/
def Obligations.UnwrittenReadIsRecorded : Prop :=
  ∀ (n : Half) (s : State), Admitted s → 6#16 ≤ n →
    ((∃ a, a < 6 ∧ s.inByte a = none) → RecordsUnwrittenRead (.hdrUnpack n) s)
    ∧ (s.inByte 2 = none ∨ s.inByte 3 = none → RecordsUnwrittenRead (.treqUnpack n) s)
    ∧ (s.inByte 2 = some 0x04#8 → s.inByte 3 = some 0x20#8 →
        (s.inByte 4 = none ∨ s.inByte 5 = none → RecordsUnwrittenRead (.treqUnpack n) s)
        ∧ (∀ tl1 tl0 : Byte, s.inByte 4 = some tl1 → s.inByte 5 = some tl0 → (tl1 ++ tl0 : Half) = n → 19#16 ≤ n →
            (s.inByte 18 = none → RecordsUnwrittenRead (.treqUnpack n) s)
            ∧ (∀ sb ds : Byte, s.inByte 18 = some sb → ds = sb &&& s.params.dsDecodeMask →
                ds = 1#8 ∨ ds = 2#8 → n = 20#16 + ds.setWidth 16 →
                  (∃ a ∈ [7, 8, 10, 16, 17, 19, 20], s.inByte a = none) ∨ (ds = 2#8 ∧ s.inByte 21 = none) →
                  RecordsUnwrittenRead (.treqUnpack n) s)))

/-- 20_memory.md R55: no operation reads a byte of IN at or past IN_LEN: of two blocks whose inputs agree below IN_LEN, if
one completes without reading an unwritten byte then so does the other, with the same response. HDR_UNPACK reads only
bytes 0 to 5. -/
def Obligations.NoByteIsReadPastTheDeclaredLength : Prop :=
  ∀ (n : Half) (s s' t : State), s'.params = s.params → Defined s t →
    ((∀ a, a < n.toNat → a < 6 → s'.inByte a = s.inByte a) → exec (.hdrUnpack n) s = .next t →
      ∃ t', exec (.hdrUnpack n) s' = .next t' ∧ Defined s' t' ∧ t'.resp = t.resp)
    ∧ ((∀ a, a < n.toNat → a < 22 → s'.inByte a = s.inByte a) → exec (.treqUnpack n) s = .next t →
      ∃ t', exec (.treqUnpack n) s' = .next t' ∧ Defined s' t' ∧ t'.resp = t.resp)

/-- 10_state.md R20: the response depends on the latched command, the bytes of IN and the parameters alone: no response,
flag, fault or reply of an earlier transaction changes it. Of two blocks that agree on the three, if one completes without
reading an unwritten byte then so does the other, with the same response. -/
def Obligations.NoCarriedState : Prop :=
  ∀ s s' t : State, s'.params = s.params → s'.cmd = s.cmd → (∀ a, s'.inByte a = s.inByte a) →
    unitStep s = .next t → Defined s t →
    ∃ t', unitStep s' = .next t' ∧ Defined s' t' ∧ t'.resp = t.resp

/-- 42_tunnelling.md R133: what TREQ_PACK produces decodes the same under both values of DS_DECODE_MASK. -/
def Obligations.BothMasksDecodeTheFramesBuilt : Prop :=
  ∀ (ch seq mc main middle sub ds apci value : Byte) (s t : State),
    exec (.treqPack ch seq mc main middle sub ds apci value) s = .next t → t.resp.status = 0x00#8 →
    ∀ s' : State, Admitted s' → (∀ a, a < t.resp.outLen.toNat → s'.inByte a = some (t.resp.outByte a)) →
      ∃ u u', exec (.treqUnpack (t.resp.outLen.setWidth 16)) { s' with params := { s'.params with dsDecodeMask := 0x0F#8 } }
          = .next u
        ∧ exec (.treqUnpack (t.resp.outLen.setWidth 16)) { s' with params := { s'.params with dsDecodeMask := 0xFF#8 } }
          = .next u'
        ∧ u.resp = u'.resp ∧ u.resp.status = 0x00#8

/-- 20_memory.md R48, R49: multi-byte reads and writes are big-endian, and agree with the byte accesses. -/
def Obligations.MixedWidthAccessesAgree : Prop :=
  ∀ (p : Params) (inBuf out : Memory) (a : Nat) (v : Half),
    (∀ hi lo : Byte, memRead1 p inBuf a = .ok hi → memRead1 p inBuf (a + 1) = .ok lo →
      memRead2 p inBuf a = .ok (hi ++ lo))
    ∧ (a + 1 < 22 → ∃ o1 o2, memWrite1 out a ((v >>> 8).setWidth 8) = .ok o1
      ∧ memWrite1 o1 (a + 1) (v.setWidth 8) = .ok o2 ∧ memWrite2 out a v = .ok o2)

/-! ### The transaction and the host -/

/-- 10_state.md R31: on the unit's turn while BUSY, a step is `exec` of the instruction the latched command decodes to. -/
def Obligations.StepRunsTheDecodedInstruction : Prop :=
  ∀ (s : State) (i : Instr), s.busy = true → decode s.cmd = .ok i →
    (s.agenda = [] → step s = exec i s)
    ∧ (∀ rest, s.agenda = .unit :: rest → step s = exec i { s with agenda := rest })
    ∧ (∀ (r : State) (nbits w : Nat), decodeTableWord nbits w = some i →
        step (r.withFetchWord nbits w)
          = exec i { r with cmd := BitVec.ofNat 80 (w % 2 ^ nbits), busy := true, respValid := false })

/-- 10_state.md R30: the issue step. The response fields keep their old values. -/
def Obligations.IssueLatchesTheCommand : Prop :=
  ∀ (s : State) (cmd : CmdWord) (rest : List Turn), s.agenda = .host (.issue cmd) :: rest →
    (s.busy = false → ∃ t, step s = .next t ∧ t.cmd = cmd ∧ t.busy = true ∧ t.respValid = false ∧ t.resp = s.resp
      ∧ t.params = s.params ∧ t.inBuf = s.inBuf ∧ t.faults = s.faults ∧ t.agenda = rest ∧ t.replies = s.replies
      ∧ t.draws = s.draws)
    ∧ (s.busy = true → step s = .refused .issueWhileBusy)

/-- 10_state.md R35: the host reads the response only while RESP_VALID = 1. -/
def Obligations.HostReadsOnlyAValidResponse : Prop :=
  ∀ (s : State) (rest : List Turn), s.agenda = .host .readResponse :: rest →
    (s.respValid = true →
      step s = .next { s with agenda := rest, replies := .response s.resp :: s.replies })
    ∧ (s.respValid = false → step s = .refused .readWhileNotValid)

/-- 10_state.md R40, the row of wait: the host gets BUSY and RESP_VALID, and the unit does nothing. -/
def Obligations.HostWaitSeesTheFlags : Prop :=
  ∀ (s : State) (rest : List Turn), s.agenda = .host .wait :: rest →
    step s = .next { s with agenda := rest, replies := .flags s.busy s.respValid :: s.replies }

/-- 10_state.md R36: the host writes IN while BUSY = 0; a write while BUSY = 1 records HOST_IN_WRITE_WHILE_BUSY. Every
other byte of IN, and every other part of the block, is as before either way. -/
def Obligations.HostWritesIn : Prop :=
  ∀ (s : State) (a : Nat) (b : Byte) (rest : List Turn), s.agenda = .host (.writeIn a b) :: rest →
    a < s.params.inCap →
    ∃ t, step s = .next t ∧ (∀ c, c ≠ a → t.inByte c = s.inByte c)
      ∧ t.params = s.params ∧ t.cmd = s.cmd ∧ t.busy = s.busy ∧ t.respValid = s.respValid ∧ t.resp = s.resp
      ∧ t.agenda = rest ∧ t.replies = s.replies
      ∧ (s.busy = false → t.inByte a = some b ∧ t.faults = s.faults)
      ∧ (s.busy = true → t.faults = { s.faults with hostInWriteWhileBusy := true })

/-- The model's choice (log 12), resting on 20_memory.md R46: a host write to an address that is none of IN's stops. -/
def Obligations.HostWriteOutsideInFaults : Prop :=
  ∀ (s : State) (a : Nat) (b : Byte) (rest : List Turn), s.agenda = .host (.writeIn a b) :: rest →
    s.params.inCap ≤ a → step s = .fault (.inAddressOutside a)

/-- 10_state.md R39: the state after reset, and that a reset leaves the parameters alone. -/
def Obligations.ResetStateIsAsStated : Prop :=
  State.reset.busy = false ∧ State.reset.respValid = false ∧ State.reset.cmd = 0#80
  ∧ State.reset.resp.status = 0x00#8 ∧ State.reset.resp.outLen = 0#8 ∧ (∀ a, State.reset.resp.outByte a = 0#8)
  ∧ State.reset.resp.results = ⟨0#8, 0#8, 0#8, 0#8, 0#8, 0#8, 0#8, 0#8, 0#8⟩
  ∧ (∀ a, State.reset.inByte a = none) ∧ State.reset.faults = ⟨false, false⟩
  ∧ (∀ s : State, ∃ t, hostReset s = .next t ∧ t.params = s.params)

/-- 70_reset_and_hazards.md R171, R172: a reset, during a transaction or not, leaves none: the response fields take
their reset values, RESP_VALID is 0, the host gets nothing, and the unit's next turn completes nothing. Every byte of IN
is unwritten. What FAULT holds is NoStepRemovesAFault's. -/
def Obligations.HostResetAbandonsTheTransaction : Prop :=
  ∀ (s : State) (rest : List Turn), s.agenda = .host .reset :: rest →
    ∃ t, step s = .next t ∧ t.busy = false ∧ t.respValid = false ∧ t.cmd = 0#80 ∧ Errs t 0x00#8
      ∧ (∀ a, t.inByte a = none) ∧ t.params = s.params ∧ t.agenda = rest ∧ t.replies = s.replies
      ∧ (rest = [] → step t = .next t)
      ∧ (∀ rest', rest = .unit :: rest' → step t = .next { t with agenda := rest' })

/-- 70_reset_and_hazards.md R178, R179: however long the completion takes, it happens, and its response does not depend
on when: after any number of waits of the host the pending command completes with the response it would have had at
once. Two clauses are the model's and no rule's. That the completion is the step right after the waits is its schedule
(log 1). That a command which reads an unwritten byte completes too, with BUSY clear, RESP_VALID set and the same free
response early or late, is its reading of such a read (log 3). -/
def Obligations.LatencyChangesNoResponse : Prop :=
  ∀ (k : Nat) (s : State), Admitted s → s.busy = true → s.agenda = List.replicate k (.host .wait) →
    ∃ t u, Host.Core.run core (k + 1) s = .next t ∧ unitStep s = .next u
      ∧ t.resp = u.resp ∧ t.faults = u.faults ∧ t.busy = false ∧ t.respValid = true

/-! ### The whole machine -/

/-- The invariant of the machine holds right after reset. -/
def Obligations.ResetMeetsTheInvariant : Prop := State.reset.inv = true

/-- Every step keeps the invariant, from every state that meets it: admitted parameters, both buffers canonical and
inside their spaces, BUSY and RESP_VALID never both set, and a legal response unless an unwritten byte was read. -/
def Obligations.EveryStepKeepsTheInvariant : Prop := ∀ s t : State, s.inv = true → step s = .next t → t.inv = true

/-- 10_state.md R42: no step ever removes a name from FAULT. That a host reset is such a step is the model's reading (log
8). -/
def Obligations.NoStepRemovesAFault : Prop :=
  ∀ s t : State, step s = .next t →
    (s.faults.unwrittenInRead = true → t.faults.unwrittenInRead = true)
    ∧ (s.faults.hostInWriteWhileBusy = true → t.faults.hostInWriteWhileBusy = true)

/-- 10_state.md R29: the parameters cannot change while the block runs. -/
def Obligations.ParametersNeverChange : Prop := ∀ s t : State, step s = .next t → t.params = s.params

/-- 10_state.md R27 and the table above R21: CMD changes only when the host issues or resets, IN only when the host writes
or resets, and the response fields only at a completion or a reset. -/
def Obligations.EachFieldHasOneWriter : Prop :=
  ∀ s t : State, step s = .next t →
    (t.cmd = s.cmd ∨ s.agenda.head? = some (.host (.issue t.cmd)) ∨ s.agenda.head? = some (.host .reset))
    ∧ (t.inBuf = s.inBuf ∨ (∃ a b, s.agenda.head? = some (.host (.writeIn a b)))
        ∨ s.agenda.head? = some (.host .reset))
    ∧ (t.resp = s.resp ∨ (s.busy = true ∧ t.busy = false ∧ t.respValid = true)
        ∨ s.agenda.head? = some (.host .reset))

/-- 10_state.md R25, R26: BUSY rises only at an issue and falls only at a completion or a reset; RESP_VALID rises only
when BUSY falls at a completion, and falls only at an issue or a reset. -/
def Obligations.FlagsFollowTheTransaction : Prop :=
  ∀ s t : State, step s = .next t →
    (s.busy = false → t.busy = true → (∃ w, s.agenda.head? = some (.host (.issue w))) ∧ t.respValid = false)
    ∧ (s.busy = true → t.busy = false → t.respValid = true ∨ s.agenda.head? = some (.host .reset))
    ∧ (s.respValid = false → t.respValid = true → s.busy = true ∧ t.busy = false)
    ∧ (s.respValid = true → t.respValid = false →
        (∃ w, s.agenda.head? = some (.host (.issue w))) ∨ s.agenda.head? = some (.host .reset))

/-- 20_memory.md R58: while a transaction is in flight, and as long as no host write during one is recorded, the input and
the command stay what they were, so that the operation sees IN as it stood at issue. -/
def Obligations.InputStaysAsAtIssue : Prop :=
  ∀ s t : State, s.busy = true → step s = .next t → t.busy = true → t.faults.hostInWriteWhileBusy = false →
    t.inBuf = s.inBuf ∧ t.cmd = s.cmd

/-- 10_state.md R43: one block of several takes the step it would take alone, and no other changes; and it takes that step
whatever the others are. That a family is a list of which one block moves at a time is the model's reading (log 14). -/
def Obligations.InstancesShareNothing : Prop :=
  (∀ (blocks after : List State) (k : Nat), stepInstance blocks k = some after →
    (∃ s t, blocks[k]? = some s ∧ step s = .next t ∧ after[k]? = some t)
    ∧ after.length = blocks.length ∧ ∀ j, j ≠ k → after[j]? = blocks[j]?)
  ∧ ∀ (blocks : List State) (k : Nat) (s t : State), blocks[k]? = some s → step s = .next t →
    ∃ after, stepInstance blocks k = some after

/-! ### The assembler -/

/-- 30_encoding.md R76: each pseudo-instruction is one command of R74, and a text with other than three segments is
refused. -/
def Obligations.PseudoInstructionsExpand : Prop :=
  (∀ (t x y z : List Char) (m mi sub : Nat), literalValue x = some m → literalValue y = some mi →
    literalValue z = some sub →
    (splitText '/' t = [x, y, z] →
      assemble .gaPack [.text t] = assemble .gaPack [.num m, .num mi, .num sub]
      ∧ ∀ ch ds value : Nat,
        assemble .treqWrite [.num ch, .text t, .num ds, .num value]
            = assemble .treqPack [.num ch, .num 0, .num 0x11, .num m, .num mi, .num sub, .num ds, .num 2, .num value]
        ∧ assemble .treqRead [.num ch, .text t, .num ds]
            = assemble .treqPack [.num ch, .num 0, .num 0x11, .num m, .num mi, .num sub, .num ds, .num 0, .num 0]
        ∧ assemble .treqResponse [.num ch, .text t, .num ds, .num value]
            = assemble .treqPack [.num ch, .num 0, .num 0x11, .num m, .num mi, .num sub, .num ds, .num 1, .num value])
    ∧ (splitText '.' t = [x, y, z] →
      assemble .iaPack [.text t] = assemble .iaPack [.num m, .num mi, .num sub]))
  ∧ (∀ (t : List Char) (i : Instr),
    ((splitText '/' t).length ≠ 3 → assemble .gaPack [.text t] ≠ .ok i
      ∧ ∀ ch ds value : Nat, assemble .treqWrite [.num ch, .text t, .num ds, .num value] ≠ .ok i
        ∧ assemble .treqRead [.num ch, .text t, .num ds] ≠ .ok i
        ∧ assemble .treqResponse [.num ch, .text t, .num ds, .num value] ≠ .ok i)
    ∧ ((splitText '.' t).length ≠ 3 → assemble .iaPack [.text t] ≠ .ok i))

/-- 30_encoding.md R75, for each of the ten forms of R74 and the five pseudo-instructions of R76: the operands assemble
exactly when each lies in its width, and a value inside the width but outside the operation's range is assembled. The
name of the refusal is the model's (log 15). -/
def Obligations.AssemblerChecksOperandWidths : Prop :=
  (∀ a b : Nat,
    AssemblesIf (FitByte [a, b]) .gaUnpack [.num a, .num b] (.gaUnpack (byte a) (byte b))
    ∧ AssemblesIf (FitByte [a, b]) .iaUnpack [.num a, .num b] (.iaUnpack (byte a) (byte b))
    ∧ AssemblesIf (FitHalf [a, b]) .hdrPack [.num a, .num b] (.hdrPack (half a) (half b))
    ∧ AssemblesIf (FitHalf [a]) .hdrUnpack [.num a] (.hdrUnpack (half a))
    ∧ AssemblesIf (FitHalf [a]) .treqUnpack [.num a] (.treqUnpack (half a)))
  ∧ (∀ a b c d : Nat,
    AssemblesIf (FitByte [a, b, c]) .gaPack [.num a, .num b, .num c] (.gaPack (byte a) (byte b) (byte c))
    ∧ AssemblesIf (FitByte [a, b, c]) .iaPack [.num a, .num b, .num c] (.iaPack (byte a) (byte b) (byte c))
    ∧ AssemblesIf (FitByte [a, b, c]) .tailPack [.num a, .num b, .num c] (.tailPack (byte a) (byte b) (byte c))
    ∧ AssemblesIf (FitByte [a, b, c, d]) .tailUnpack [.num a, .num b, .num c, .num d]
        (.tailUnpack (byte a) (byte b) (byte c) (byte d)))
  ∧ (∀ ch seq mc m mi sub ds apci value : Nat,
    AssemblesIf (FitByte [ch, seq, mc, m, mi, sub, ds, apci, value]) .treqPack
      [.num ch, .num seq, .num mc, .num m, .num mi, .num sub, .num ds, .num apci, .num value]
      (.treqPack (byte ch) (byte seq) (byte mc) (byte m) (byte mi) (byte sub) (byte ds) (byte apci) (byte value)))
  ∧ (∀ (t x y z : List Char) (m mi sub : Nat), literalValue x = some m → literalValue y = some mi →
    literalValue z = some sub →
    (splitText '.' t = [x, y, z] →
      AssemblesIf (FitByte [m, mi, sub]) .iaPack [.text t] (.iaPack (byte m) (byte mi) (byte sub)))
    ∧ (splitText '/' t = [x, y, z] →
      AssemblesIf (FitByte [m, mi, sub]) .gaPack [.text t] (.gaPack (byte m) (byte mi) (byte sub))
      ∧ ∀ ch ds value : Nat,
        AssemblesIf (FitByte [ch, m, mi, sub, ds, value]) .treqWrite [.num ch, .text t, .num ds, .num value]
          (.treqPack (byte ch) 0#8 0x11#8 (byte m) (byte mi) (byte sub) (byte ds) 2#8 (byte value))
        ∧ AssemblesIf (FitByte [ch, m, mi, sub, ds]) .treqRead [.num ch, .text t, .num ds]
          (.treqPack (byte ch) 0#8 0x11#8 (byte m) (byte mi) (byte sub) (byte ds) 0#8 0#8)
        ∧ AssemblesIf (FitByte [ch, m, mi, sub, ds, value]) .treqResponse [.num ch, .text t, .num ds, .num value]
          (.treqPack (byte ch) 0#8 0x11#8 (byte m) (byte mi) (byte sub) (byte ds) 1#8 (byte value))))

/-! ### What an error leaves to be read -/

/-- 60_exceptions.md R145: "the command word stays in CMD and the input stays in IN, where the host can read both again".
No completion, an error's included, changes either, and after one that ends in an error what can be read again is the
command that failed and the input as it stood. That this is a view of the state beside the closed table of 10_state.md
R40, and that it is there after an error alone and inside IN alone, is the model's choice (log 18). -/
def Obligations.CommandAndInputCanBeReadAgain : Prop :=
  (∀ s t : State, unitStep s = .next t →
    t.cmd = s.cmd ∧ (∀ a, t.inByte a = s.inByte a)
    ∧ (t.resp.status ≠ 0x00#8 → t.readAgain .command = some (.command s.cmd)
      ∧ ∀ a, a < s.params.inCap → t.readAgain (.inByte a) = some (.inByte (s.inByte a))))
  ∧ ∀ s : State,
    (∀ o, s.respValid = false ∨ s.resp.status = 0x00#8 → s.readAgain o = none)
    ∧ ∀ a, s.params.inCap ≤ a → s.readAgain (.inByte a) = none
end

