-- ==== Sys2Proof/Laws/Bits.lean ====
section
/-! SUPPORT. The fields of a command word put together byte by byte, and of a 16-bit value. -/

namespace Sys2Proof

/-- The low byte of a concatenation. -/
theorem extract_append_low {n : Nat} (x : BitVec n) (y : Byte) : (x ++ y).extractLsb' 0 8 = y := by
  ext k hk
  simp [BitVec.getLsbD_append, hk]

/-- A slice of a concatenation above its low byte. -/
theorem extract_append_high {n : Nat} (x : BitVec n) (y : Byte) (j w : Nat) :
    (x ++ y).extractLsb' (j + 8) w = x.extractLsb' j w := by
  ext k hk
  simp only [BitVec.getElem_extractLsb', BitVec.getLsbD_append]
  rw [if_neg (by omega)]
  congr 1
  omega

@[simp] theorem hiByte_append (a b : Byte) : hiByte (a ++ b) = a := by
  unfold hiByte
  refine (extract_append_high a b 0 8).trans ?_
  ext k hk
  simp

@[simp] theorem loByte_append (a b : Byte) : loByte (a ++ b) = b := extract_append_low a b

@[simp] theorem append_hiByte_loByte (v : Half) : hiByte v ++ loByte v = v := by
  ext k hk
  simp only [hiByte, loByte]
  rcases Nat.lt_or_ge k 8 with h | h
  · have := BitVec.getLsbD_append (x := v.extractLsb' 8 8) (y := v.extractLsb' 0 8) (i := k)
    simp only [h, if_true] at this
    rw [← BitVec.getLsbD_eq_getElem, this]
    simp [h, BitVec.getLsbD_eq_getElem hk]
  · have := BitVec.getLsbD_append (x := v.extractLsb' 8 8) (y := v.extractLsb' 0 8) (i := k)
    rw [if_neg (by omega)] at this
    rw [← BitVec.getLsbD_eq_getElem, this]
    simp [show k - 8 < 8 by omega, show 8 + (k - 8) = k by omega, BitVec.getLsbD_eq_getElem hk]

section word
variable (op f0 f1 f2 f3 f4 f5 f6 f7 f8 : Byte)

/-- The opcode of a word of ten bytes is its first byte (20_memory.md R51). -/
@[simp] theorem opcodeOf_wordOfBytes : opcodeOf (wordOfBytes op f0 f1 f2 f3 f4 f5 f6 f7 f8) = op :=
  extract_append_low _ op

@[simp] theorem fieldOf_wordOfBytes_0 : fieldOf (wordOfBytes op f0 f1 f2 f3 f4 f5 f6 f7 f8) 0 = f0 :=
  (extract_append_high _ op 0 8).trans (extract_append_low _ f0)

@[simp] theorem fieldOf_wordOfBytes_1 : fieldOf (wordOfBytes op f0 f1 f2 f3 f4 f5 f6 f7 f8) 1 = f1 :=
  (extract_append_high _ op 8 8).trans <| (extract_append_high _ f0 0 8).trans (extract_append_low _ f1)

@[simp] theorem fieldOf_wordOfBytes_2 : fieldOf (wordOfBytes op f0 f1 f2 f3 f4 f5 f6 f7 f8) 2 = f2 :=
  (extract_append_high _ op 16 8).trans <| (extract_append_high _ f0 8 8).trans <|
    (extract_append_high _ f1 0 8).trans (extract_append_low _ f2)

@[simp] theorem fieldOf_wordOfBytes_3 : fieldOf (wordOfBytes op f0 f1 f2 f3 f4 f5 f6 f7 f8) 3 = f3 :=
  (extract_append_high _ op 24 8).trans <| (extract_append_high _ f0 16 8).trans <|
    (extract_append_high _ f1 8 8).trans <| (extract_append_high _ f2 0 8).trans (extract_append_low _ f3)

@[simp] theorem fieldOf_wordOfBytes_4 : fieldOf (wordOfBytes op f0 f1 f2 f3 f4 f5 f6 f7 f8) 4 = f4 :=
  (extract_append_high _ op 32 8).trans <| (extract_append_high _ f0 24 8).trans <|
    (extract_append_high _ f1 16 8).trans <| (extract_append_high _ f2 8 8).trans <|
    (extract_append_high _ f3 0 8).trans (extract_append_low _ f4)

@[simp] theorem fieldOf_wordOfBytes_5 : fieldOf (wordOfBytes op f0 f1 f2 f3 f4 f5 f6 f7 f8) 5 = f5 :=
  (extract_append_high _ op 40 8).trans <| (extract_append_high _ f0 32 8).trans <|
    (extract_append_high _ f1 24 8).trans <| (extract_append_high _ f2 16 8).trans <|
    (extract_append_high _ f3 8 8).trans <| (extract_append_high _ f4 0 8).trans (extract_append_low _ f5)

@[simp] theorem fieldOf_wordOfBytes_6 : fieldOf (wordOfBytes op f0 f1 f2 f3 f4 f5 f6 f7 f8) 6 = f6 :=
  (extract_append_high _ op 48 8).trans <| (extract_append_high _ f0 40 8).trans <|
    (extract_append_high _ f1 32 8).trans <| (extract_append_high _ f2 24 8).trans <|
    (extract_append_high _ f3 16 8).trans <| (extract_append_high _ f4 8 8).trans <|
    (extract_append_high _ f5 0 8).trans (extract_append_low _ f6)

@[simp] theorem fieldOf_wordOfBytes_7 : fieldOf (wordOfBytes op f0 f1 f2 f3 f4 f5 f6 f7 f8) 7 = f7 :=
  (extract_append_high _ op 56 8).trans <| (extract_append_high _ f0 48 8).trans <|
    (extract_append_high _ f1 40 8).trans <| (extract_append_high _ f2 32 8).trans <|
    (extract_append_high _ f3 24 8).trans <| (extract_append_high _ f4 16 8).trans <|
    (extract_append_high _ f5 8 8).trans <| (extract_append_high _ f6 0 8).trans (extract_append_low _ f7)

@[simp] theorem fieldOf_wordOfBytes_8 : fieldOf (wordOfBytes op f0 f1 f2 f3 f4 f5 f6 f7 f8) 8 = f8 := by
  refine (extract_append_high _ op 64 8).trans <| (extract_append_high _ f0 56 8).trans <|
    (extract_append_high _ f1 48 8).trans <| (extract_append_high _ f2 40 8).trans <|
    (extract_append_high _ f3 32 8).trans <| (extract_append_high _ f4 24 8).trans <|
    (extract_append_high _ f5 16 8).trans <| (extract_append_high _ f6 8 8).trans <|
    (extract_append_high _ f7 0 8).trans ?_
  ext k hk
  simp

end word

/-- The opcode of an encoding is the instruction's. -/
@[simp] theorem opcodeOf_encode (i : Instr) : opcodeOf (encode i) = i.opcode := opcodeOf_wordOfBytes ..

end Sys2Proof
end

