-- ==== Sys2Proof/Laws/Fields.lean ====
section
/-! SUPPORT. The packed and unpacked bit fields in the source's own spelling, with shifts, masks and ORs (spec
40_address.md R85, R86, 42_tunnelling.md R117, R118), proved bit by bit, and what is left of a field packed and then
unpacked. -/

namespace Sys2Proof.Machine

/-- A value below `2^n` has no bit from `n` up. -/
theorem bit_above {x : Byte} {n : Nat} (h : x.toNat < 2 ^ n) (k : Nat) (hk : k < 8) (hn : n ≤ k) : x[k] = false :=
  Nat.testBit_lt_two_pow (Nat.lt_of_lt_of_le h (Nat.pow_le_pow_right (by decide) hn))

section pack
variable {main middle area line device apci value : Byte}

/-- `byte0 = main<<3 | middle` (40_address.md R85). -/
theorem gaByte0_eq (h : middle ≤ 7#8) : gaByte0 main middle = main <<< 3 ||| middle := by
  have b := bit_above (n := 3) (Nat.lt_succ_of_le h)
  ext k hk
  refine (BitVec.getElem_append (x := main.extractLsb' 0 5) (y := middle.extractLsb' 0 3) hk).trans ?_
  interval_cases k <;> simp [b]

/-- `byte0 = area<<4 | line` (40_address.md R86). -/
theorem hiByte_iaWord (h : line ≤ 15#8) : hiByte (iaWord area line device) = area <<< 4 ||| line := by
  have b := bit_above (n := 4) (Nat.lt_succ_of_le h)
  refine (extract_append_high (area.extractLsb' 0 4 ++ line.extractLsb' 0 4) device 0 8).trans ?_
  ext k hk
  rw [BitVec.getElem_extractLsb', BitVec.getLsbD_append]
  interval_cases k <;> simp [b]

/-- `byte1 = device` (40_address.md R86). -/
@[simp] theorem loByte_iaWord : loByte (iaWord area line device) = device := extract_append_low _ device

/-- `apci >> 2` in byte N (42_tunnelling.md R117). -/
theorem byteNOf_eq (h : apci ≤ 15#8) : byteNOf apci = apci >>> 2 := by
  have b := bit_above (n := 4) (Nat.lt_succ_of_le h)
  ext k hk
  refine (BitVec.getElem_append (x := 0#6) (y := apci.extractLsb' 2 2) hk).trans ?_
  interval_cases k <;> simp [b]

/-- `(apci & 3) << 6` in byte N+1 (42_tunnelling.md R118). -/
theorem byteN1OfByte_eq : byteN1OfByte apci = (apci &&& 3#8) <<< 6 := by
  ext k hk
  refine (BitVec.getElem_append (x := apci.extractLsb' 0 2) (y := 0#6) hk).trans ?_
  interval_cases k <;> simp

/-- `(apci & 3) << 6 | (value & 1)` in byte N+1 (42_tunnelling.md R118). -/
theorem byteN1OfBool_eq : byteN1OfBool apci value = (apci &&& 3#8) <<< 6 ||| (value &&& 1#8) := by
  ext k hk
  refine (BitVec.getElem_append (x := apci.extractLsb' 0 2 ++ 0#5) (y := value.extractLsb' 0 1) hk).trans ?_
  have e (j : Nat) (hj : j < 2 + 5) := BitVec.getElem_append (x := apci.extractLsb' 0 2) (y := 0#5) hj
  simp only [e]
  interval_cases k <;> simp

/-- The size byte of a supported size is the size (42_tunnelling.md R116). -/
theorem sizeByteOf_eq {ds : Byte} (h : ds ≤ 15#8) : sizeByteOf ds = ds := by
  have b := bit_above (n := 4) (Nat.lt_succ_of_le h)
  ext k hk
  refine (BitVec.getElem_append (x := 0#4) (y := ds.extractLsb' 0 4) hk).trans ?_
  interval_cases k <;> simp [b]

end pack

section unpack
variable (b c : Byte)

theorem gaMain_eq : gaMain b = b >>> 3 := by
  ext k hk
  interval_cases k <;> simp [gaMain, bits8]

theorem gaMiddle_eq : gaMiddle b = b &&& 7#8 := by
  ext k hk
  interval_cases k <;> simp [gaMiddle, bits8]

theorem iaArea_append : iaArea (b ++ c) = b >>> 4 := by
  unfold iaArea bits8
  rw [extract_append_high b c 4 4]
  ext k hk
  interval_cases k <;> simp

theorem iaLine_append : iaLine (b ++ c) = b &&& 15#8 := by
  unfold iaLine bits8
  rw [extract_append_high b c 0 4]
  ext k hk
  interval_cases k <;> simp

theorem iaDevice_append : iaDevice (b ++ c) = c := by
  unfold iaDevice bits8
  rw [extract_append_low b c]
  ext k hk
  simp

/-- APCI from the source's two split fields (42_tunnelling.md R120). -/
theorem apciOf_eq : apciOf b c = (b &&& 3#8) <<< 2 ||| c >>> 6 := by
  ext k hk
  simp only [apciOf, bits8, BitVec.getElem_setWidth, BitVec.getLsbD_extractLsb', BitVec.getLsbD_append]
  interval_cases k <;> simp

theorem boolValueOf_eq : boolValueOf b = b &&& 1#8 := by
  ext k hk
  interval_cases k <;> simp [boolValueOf, bits8]

end unpack

/-! What a packed field unpacks to. -/

section roundTrip
variable {x y : Byte}

theorem shift3_or_high (hx : x ≤ 31#8) (hy : y ≤ 7#8) : (x <<< 3 ||| y) >>> 3 = x := by
  have a := bit_above (n := 5) (Nat.lt_succ_of_le hx)
  have b := bit_above (n := 3) (Nat.lt_succ_of_le hy)
  ext k hk
  interval_cases k <;> simp [a, b]

theorem shift3_or_low (hy : y ≤ 7#8) : (x <<< 3 ||| y) &&& 7#8 = y := by
  have b := bit_above (n := 3) (Nat.lt_succ_of_le hy)
  ext k hk
  interval_cases k <;> simp [b]

theorem shift4_or_high (hx : x ≤ 15#8) (hy : y ≤ 15#8) : (x <<< 4 ||| y) >>> 4 = x := by
  have a := bit_above (n := 4) (Nat.lt_succ_of_le hx)
  have b := bit_above (n := 4) (Nat.lt_succ_of_le hy)
  ext k hk
  interval_cases k <;> simp [a, b]

theorem shift4_or_low (hy : y ≤ 15#8) : (x <<< 4 ||| y) &&& 15#8 = y := by
  have b := bit_above (n := 4) (Nat.lt_succ_of_le hy)
  ext k hk
  interval_cases k <;> simp [b]

/-- The command code packed beside a boolean and reassembled. -/
theorem apci_of_bool_tail (hx : x ≤ 15#8) :
    (x >>> 2 &&& 3#8) <<< 2 ||| ((x &&& 3#8) <<< 6 ||| (y &&& 1#8)) >>> 6 = x := by
  have a := bit_above (n := 4) (Nat.lt_succ_of_le hx)
  ext k hk
  interval_cases k <;> simp [a]

/-- The command code packed with no value bits and reassembled. -/
theorem apci_of_byte_tail (hx : x ≤ 15#8) : (x >>> 2 &&& 3#8) <<< 2 ||| ((x &&& 3#8) <<< 6) >>> 6 = x := by
  have a := bit_above (n := 4) (Nat.lt_succ_of_le hx)
  ext k hk
  interval_cases k <;> simp [a]

/-- The boolean packed beside the command code. -/
theorem bool_of_bool_tail : ((x &&& 3#8) <<< 6 ||| (y &&& 1#8)) &&& 1#8 = y &&& 1#8 := by
  ext k hk
  interval_cases k <;> simp

end roundTrip

end Sys2Proof.Machine
end

