-- ==== Sys2Proof/Laws/Memory.lean ====
section
/-! SUPPORT. The laws of byte memories: a read after a write, and that every write keeps the canonical form. -/

namespace Sys2Proof.Machine

theorem Memory.listed_list (m : Memory) (a : Nat) (b : Byte) (c : Nat) :
    Memory.listed (Memory.list m a b) c = if c = a then some b else Memory.listed m c := by
  induction m with
  | nil => by_cases h : a = c <;> simp [Memory.list, Memory.listed, h, eq_comm]
  | cons x rest ih =>
    obtain ⟨k, v⟩ := x
    unfold Memory.list
    split
    · simp only [Memory.listed, eq_comm]
    · split
      · subst a; by_cases h : c = k <;> simp [Memory.listed, h, eq_comm]
      · rename_i h
        by_cases hk : k = c
        · subst hk; simp [Memory.listed, Ne.symm h]
        · simp [Memory.listed, hk, ih]

theorem Memory.listed_unlist (m : Memory) (a c : Nat) :
    Memory.listed (Memory.unlist m a) c = if c = a then none else Memory.listed m c := by
  induction m with
  | nil => simp [Memory.unlist, Memory.listed]
  | cons x rest ih =>
    obtain ⟨k, v⟩ := x
    by_cases h : k = a
    · subst h
      by_cases hc : c = k
      · subst hc; simpa [Memory.unlist] using ih
      · simp [Memory.unlist, ih, hc, Memory.listed, Ne.symm hc]
    · by_cases hk : k = c
      · subst hk; simp [Memory.unlist, Memory.listed, h]
      · simp [Memory.unlist, Memory.listed, h, hk, ih]

/-- A read after a write: the byte written at its address, every other byte as before. -/
theorem Memory.get_set (blank : Option Byte) (m : Memory) (a : Nat) (b : Byte) (c : Nat) :
    Memory.get blank (Memory.set blank m a b) c = if c = a then some b else Memory.get blank m c := by
  by_cases hb : blank = some b
  · by_cases hc : c = a <;> simp [Memory.get, Memory.set, hb, Memory.listed_unlist, hc]
  · by_cases hc : c = a <;> simp [Memory.get, Memory.set, hb, Memory.listed_list, hc]

@[simp] theorem Memory.get_nil (blank : Option Byte) (a : Nat) : Memory.get blank [] a = blank := rfl

/-- With nothing listed, every byte of `OUT` is zero. -/
theorem Response.outByte_nil (r : Response) (h : r.out = []) (a : Nat) : r.outByte a = 0#8 := by
  simp [Response.outByte, h, outBlank]

/-- `OUT` after a write, one byte. -/
theorem Memory.getD_set_out (m : Memory) (a : Nat) (b : Byte) (c : Nat) :
    (Memory.get outBlank (Memory.set outBlank m a b) c).getD 0#8
      = if c = a then b else (Memory.get outBlank m c).getD 0#8 := by
  rw [Memory.get_set]; split <;> rfl

theorem Memory.risesFrom_mono {a b : Nat} (h : a ≤ b) (m : Memory) (hm : Memory.risesFrom b m = true) :
    Memory.risesFrom a m = true := by
  cases m with
  | nil => rfl
  | cons x rest =>
    simp only [Memory.risesFrom, Bool.and_eq_true, decide_eq_true_eq] at *
    exact ⟨h.trans hm.1, hm.2⟩

theorem Memory.risesFrom_list (m : Memory) (a : Nat) (b : Byte) (k : Nat) (hk : k ≤ a)
    (hm : Memory.risesFrom k m = true) : Memory.risesFrom k (Memory.list m a b) = true := by
  induction m generalizing k with
  | nil => simpa [Memory.list, Memory.risesFrom] using hk
  | cons x rest ih =>
    obtain ⟨j, c⟩ := x
    simp only [Memory.risesFrom, Bool.and_eq_true, decide_eq_true_eq] at hm
    unfold Memory.list
    split
    · simp only [Memory.risesFrom, Bool.and_eq_true, decide_eq_true_eq]
      exact ⟨hk, by omega, hm.2⟩
    · split
      · subst a; simpa [Memory.risesFrom] using ⟨hk, hm.2⟩
      · simp only [Memory.risesFrom, Bool.and_eq_true, decide_eq_true_eq]
        exact ⟨hm.1, ih (j + 1) (by omega) hm.2⟩

theorem Memory.risesFrom_unlist (m : Memory) (a k : Nat) (hm : Memory.risesFrom k m = true) :
    Memory.risesFrom k (Memory.unlist m a) = true := by
  induction m generalizing k with
  | nil => rfl
  | cons x rest ih =>
    obtain ⟨j, c⟩ := x
    simp only [Memory.risesFrom, Bool.and_eq_true, decide_eq_true_eq] at hm
    unfold Memory.unlist
    split
    · exact Memory.risesFrom_mono (by omega) _ (ih (j + 1) hm.2)
    · simp only [Memory.risesFrom, Bool.and_eq_true, decide_eq_true_eq]
      exact ⟨hm.1, ih (j + 1) hm.2⟩

theorem Memory.mem_list (m : Memory) (a : Nat) (b : Byte) (c : Host.Cell) (h : c ∈ Memory.list m a b) :
    c = (a, b) ∨ c ∈ m := by
  induction m with
  | nil => simpa [Memory.list] using h
  | cons x rest ih =>
    obtain ⟨j, v⟩ := x
    unfold Memory.list at h
    split at h
    · simpa using h
    · split at h
      · rcases List.mem_cons.1 h with h | h
        · exact .inl h
        · exact .inr (List.mem_cons_of_mem _ h)
      · rcases List.mem_cons.1 h with h | h
        · exact .inr (h ▸ List.mem_cons_self ..)
        · exact (ih h).imp_right (List.mem_cons_of_mem _)

theorem Memory.mem_unlist (m : Memory) (a : Nat) (c : Host.Cell) (h : c ∈ Memory.unlist m a) : c ∈ m := by
  induction m with
  | nil => simp [Memory.unlist] at h
  | cons x rest ih =>
    obtain ⟨j, v⟩ := x
    unfold Memory.unlist at h
    split at h
    · exact List.mem_cons_of_mem _ (ih h)
    · rcases List.mem_cons.1 h with h | h
      · exact h ▸ List.mem_cons_self ..
      · exact List.mem_cons_of_mem _ (ih h)

theorem Memory.wf_nil (blank : Option Byte) (cap : Nat) : Memory.wf blank cap [] = true := rfl

/-- Every write inside the space keeps the canonical form. -/
theorem Memory.wf_set (blank : Option Byte) (cap : Nat) (m : Memory) (a : Nat) (b : Byte) (ha : a < cap)
    (hm : Memory.wf blank cap m = true) : Memory.wf blank cap (Memory.set blank m a b) = true := by
  simp only [Memory.wf, Bool.and_eq_true, List.all_eq_true, decide_eq_true_eq] at *
  unfold Memory.set
  split
  · exact ⟨Memory.risesFrom_unlist m a 0 hm.1, fun c hc => hm.2 c (Memory.mem_unlist m a c hc)⟩
  · rename_i hb
    refine ⟨Memory.risesFrom_list m a b 0 (Nat.zero_le a) hm.1, fun c hc => ?_⟩
    rcases Memory.mem_list m a b c hc with h | h
    · subst h; exact ⟨ha, hb⟩
    · exact hm.2 c h

/-- A write below `n` leaves nothing listed at or above `n` that was not. -/
theorem Memory.below_set (blank : Option Byte) (n : Nat) (m : Memory) (a : Nat) (b : Byte) (ha : a < n)
    (hm : (m.all fun c => decide (c.1 < n)) = true) :
    ((Memory.set blank m a b).all fun c => decide (c.1 < n)) = true := by
  simp only [List.all_eq_true, decide_eq_true_eq] at *
  unfold Memory.set
  intro c hc
  split at hc
  · exact hm c (Memory.mem_unlist m a c hc)
  · rcases Memory.mem_list m a b c hc with h | h
    · subst h; exact ha
    · exact hm c h

/-- The free bytes of a response the spec does not define are a canonical `OUT`. -/
theorem freeOut_wf (draw k : Nat) (hk : k ≤ Config.outCap) :
    Memory.wf outBlank Config.outCap (freeOut draw k) = true := by
  induction k with
  | zero => rfl
  | succ k ih => exact Memory.wf_set _ _ _ _ _ hk (ih (by omega))

end Sys2Proof.Machine
end

