-- ==== Sys2Proof/Laws/State.lean ====
section
/-! SUPPORT. One lemma per field and per update of State, so that no later proof unfolds an update. -/

namespace Sys2Proof.Machine

section respond
variable (s : State) (r : Response)
@[simp] theorem State.respond_params : (s.respond r).params = s.params := rfl
@[simp] theorem State.respond_cmd : (s.respond r).cmd = s.cmd := rfl
@[simp] theorem State.respond_busy : (s.respond r).busy = false := rfl
@[simp] theorem State.respond_respValid : (s.respond r).respValid = true := rfl
@[simp] theorem State.respond_resp : (s.respond r).resp = r := rfl
@[simp] theorem State.respond_inBuf : (s.respond r).inBuf = s.inBuf := rfl
@[simp] theorem State.respond_inByte (a : Nat) : (s.respond r).inByte a = s.inByte a := rfl
@[simp] theorem State.respond_faults : (s.respond r).faults = s.faults := rfl
@[simp] theorem State.respond_agenda : (s.respond r).agenda = s.agenda := rfl
@[simp] theorem State.respond_replies : (s.respond r).replies = s.replies := rfl
@[simp] theorem State.respond_draws : (s.respond r).draws = s.draws := rfl
end respond

section takeError
variable (s : State) (e : Error)
@[simp] theorem State.takeError_params : (s.takeError e).params = s.params := rfl
@[simp] theorem State.takeError_cmd : (s.takeError e).cmd = s.cmd := rfl
@[simp] theorem State.takeError_busy : (s.takeError e).busy = false := rfl
@[simp] theorem State.takeError_respValid : (s.takeError e).respValid = true := rfl
@[simp] theorem State.takeError_resp : (s.takeError e).resp = errorResponse e := rfl
@[simp] theorem State.takeError_inBuf : (s.takeError e).inBuf = s.inBuf := rfl
@[simp] theorem State.takeError_inByte (a : Nat) : (s.takeError e).inByte a = s.inByte a := rfl
@[simp] theorem State.takeError_faults : (s.takeError e).faults = s.faults := rfl
@[simp] theorem State.takeError_agenda : (s.takeError e).agenda = s.agenda := rfl
@[simp] theorem State.takeError_replies : (s.takeError e).replies = s.replies := rfl
@[simp] theorem State.takeError_draws : (s.takeError e).draws = s.draws := rfl
end takeError

section takeUnwritten
variable (s : State)
@[simp] theorem State.takeUnwritten_params : s.takeUnwritten.params = s.params := rfl
@[simp] theorem State.takeUnwritten_cmd : s.takeUnwritten.cmd = s.cmd := rfl
@[simp] theorem State.takeUnwritten_busy : s.takeUnwritten.busy = false := rfl
@[simp] theorem State.takeUnwritten_respValid : s.takeUnwritten.respValid = true := rfl
@[simp] theorem State.takeUnwritten_resp : s.takeUnwritten.resp = undefinedResponse s.draws := rfl
@[simp] theorem State.takeUnwritten_inBuf : s.takeUnwritten.inBuf = s.inBuf := rfl
@[simp] theorem State.takeUnwritten_inByte (a : Nat) : s.takeUnwritten.inByte a = s.inByte a := rfl
@[simp] theorem State.takeUnwritten_unwrittenInRead : s.takeUnwritten.faults.unwrittenInRead = true := rfl
@[simp] theorem State.takeUnwritten_hostInWrite :
    s.takeUnwritten.faults.hostInWriteWhileBusy = s.faults.hostInWriteWhileBusy := rfl
@[simp] theorem State.takeUnwritten_agenda : s.takeUnwritten.agenda = s.agenda := rfl
@[simp] theorem State.takeUnwritten_replies : s.takeUnwritten.replies = s.replies := rfl
@[simp] theorem State.takeUnwritten_draws : s.takeUnwritten.draws = s.draws + undefinedDraws := rfl
end takeUnwritten

section withPending
variable (s : State) (w : CmdWord)
@[simp] theorem State.withPending_params : (s.withPending w).params = s.params := rfl
@[simp] theorem State.withPending_cmd : (s.withPending w).cmd = w := rfl
@[simp] theorem State.withPending_busy : (s.withPending w).busy = true := rfl
@[simp] theorem State.withPending_respValid : (s.withPending w).respValid = false := rfl
@[simp] theorem State.withPending_resp : (s.withPending w).resp = s.resp := rfl
@[simp] theorem State.withPending_inBuf : (s.withPending w).inBuf = s.inBuf := rfl
@[simp] theorem State.withPending_faults : (s.withPending w).faults = s.faults := rfl
@[simp] theorem State.withPending_agenda : (s.withPending w).agenda = .unit :: s.agenda := rfl
@[simp] theorem State.withPending_draws : (s.withPending w).draws = s.draws := rfl
end withPending

section responses
variable (out : Memory) (len : Byte) (rs : Results) (e : Error)
@[simp] theorem packed_status : (packed out len).status = statusOk := rfl
@[simp] theorem packed_outLen : (packed out len).outLen = len := rfl
@[simp] theorem packed_out : (packed out len).out = out := rfl
@[simp] theorem packed_results : (packed out len).results = {} := rfl
@[simp] theorem unpacked_status : (unpacked rs).status = statusOk := rfl
@[simp] theorem unpacked_outLen : (unpacked rs).outLen = 0#8 := rfl
@[simp] theorem unpacked_out : (unpacked rs).out = [] := rfl
@[simp] theorem unpacked_results : (unpacked rs).results = rs := rfl
@[simp] theorem errorResponse_status : (errorResponse e).status = e.code := rfl
@[simp] theorem errorResponse_outLen : (errorResponse e).outLen = 0#8 := rfl
@[simp] theorem errorResponse_out : (errorResponse e).out = [] := rfl
@[simp] theorem errorResponse_results : (errorResponse e).results = {} := rfl
end responses

end Sys2Proof.Machine
end

