-- ==== Sys2Proof/Laws/Ops.lean ====
section
/-! SUPPORT. What each shared operation can do, said once. -/

namespace Sys2Proof.Machine

@[simp] theorem Op.ok_bind {α β : Type} (a : α) (f : α → Op β) : ((Except.ok a : Op α) >>= f) = f a := rfl

@[simp] theorem Op.error_bind {α β : Type} (x : Stop) (f : α → Op β) :
    ((Except.error x : Op α) >>= f) = .error x := rfl

@[simp] theorem raiseIf_true (e : Error) : raiseIf true e = .error (.raised e) := rfl

@[simp] theorem raiseIf_false (e : Error) : raiseIf false e = .ok () := rfl

/-- A written byte inside `IN` is read as it stands. -/
theorem memRead1_of_written (p : Params) (m : Memory) (a : Nat) (b : Byte) (ha : a < p.inCap)
    (hb : Memory.get inBlank m a = some b) : memRead1 p m a = .ok b := by
  simp [memRead1, Nat.not_le.2 ha, hb]

/-- An unwritten byte inside `IN` stops the operation. -/
theorem memRead1_of_unwritten (p : Params) (m : Memory) (a : Nat) (ha : a < p.inCap)
    (hb : Memory.get inBlank m a = none) : memRead1 p m a = .error .unwritten := by
  simp [memRead1, Nat.not_le.2 ha, hb]

/-- Everything a one-byte read can do. -/
theorem memRead1_cases (p : Params) (m : Memory) (a : Nat) :
    (p.inCap ≤ a ∧ memRead1 p m a = .error (.outsideIn a))
    ∨ (a < p.inCap ∧ Memory.get inBlank m a = none ∧ memRead1 p m a = .error .unwritten)
    ∨ (∃ b, a < p.inCap ∧ Memory.get inBlank m a = some b ∧ memRead1 p m a = .ok b) := by
  rcases Nat.lt_or_ge a p.inCap with ha | ha
  · cases hb : Memory.get inBlank m a with
    | none => exact .inr (.inl ⟨ha, rfl, memRead1_of_unwritten p m a ha hb⟩)
    | some b => exact .inr (.inr ⟨b, ha, rfl, memRead1_of_written p m a b ha hb⟩)
  · exact .inl ⟨ha, by simp [memRead1, ha]⟩

/-- Two written bytes are read high byte first (20_memory.md R48). -/
theorem memRead2_of_written (p : Params) (m : Memory) (a : Nat) (hi lo : Byte) (ha : a + 1 < p.inCap)
    (hhi : Memory.get inBlank m a = some hi) (hlo : Memory.get inBlank m (a + 1) = some lo) :
    memRead2 p m a = .ok (hi ++ lo) := by
  simp [memRead2, memRead1_of_written p m a hi (by omega) hhi, memRead1_of_written p m (a + 1) lo ha hlo]

/-- A write inside `OUT` succeeds. -/
@[simp] theorem memWrite1_of_lt (out : Memory) (a : Nat) (v : Byte) (ha : a < 22) :
    memWrite1 out a v = .ok (Memory.set outBlank out a v) := by
  simp [memWrite1, Config.outCap, Nat.not_le.2 ha]

/-- A two-byte write inside `OUT` succeeds, high byte first. -/
@[simp] theorem memWrite2_of_lt (out : Memory) (a : Nat) (v : Half) (ha : a + 1 < 22) :
    memWrite2 out a v = .ok (Memory.set outBlank (Memory.set outBlank out a (hiByte v)) (a + 1) (loByte v)) := by
  simp [memWrite2, memWrite1_of_lt _ _ _ ha, memWrite1_of_lt out a (hiByte v) (by omega)]

/-- After an error every byte of `OUT` is zero. -/
@[simp] theorem errorResponse_outByte (e : Error) (a : Nat) : (errorResponse e).outByte a = 0#8 :=
  Response.outByte_nil _ rfl a

/-- After an unpack operation every byte of `OUT` is zero. -/
@[simp] theorem unpacked_outByte (rs : Results) (a : Nat) : (unpacked rs).outByte a = 0#8 :=
  Response.outByte_nil _ rfl a

/-- Everything the completion step can do. -/
theorem complete_cases (o : Op Response) (s : State) :
    (∃ r, o = .ok r ∧ complete o s = .next (s.respond r))
    ∨ (∃ e, o = .error (.raised e) ∧ complete o s = .next (s.takeError e))
    ∨ (o = .error .unwritten ∧ complete o s = .next s.takeUnwritten)
    ∨ (∃ a, o = .error (.outsideIn a) ∧ complete o s = .fault (.inAddressOutside a))
    ∨ (∃ a, o = .error (.outsideOut a) ∧ complete o s = .fault (.outAddressOutside a)) := by
  cases o with
  | ok r => exact .inl ⟨r, rfl, rfl⟩
  | error x =>
    cases x with
    | raised e => exact .inr (.inl ⟨e, rfl, rfl⟩)
    | unwritten => exact .inr (.inr (.inl ⟨rfl, rfl⟩))
    | outsideIn a => exact .inr (.inr (.inr (.inl ⟨a, rfl, rfl⟩)))
    | outsideOut a => exact .inr (.inr (.inr (.inr ⟨a, rfl, rfl⟩)))

@[simp] theorem complete_ok (r : Response) (s : State) : complete (.ok r) s = .next (s.respond r) := rfl

@[simp] theorem complete_raised (e : Error) (s : State) :
    complete (.error (.raised e)) s = .next (s.takeError e) := rfl

@[simp] theorem complete_unwritten (s : State) : complete (.error .unwritten) s = .next s.takeUnwritten := rfl

/-- Whatever the operation, a completion that answers a next state replaces the response and no other part of the
machine, but for the record of an unwritten read. -/
theorem complete_next {o : Op Response} {s t : State} (h : complete o s = .next t) :
    t = s.respond t.resp ∨ t = s.takeUnwritten := by
  rcases complete_cases o s with ⟨r, -, hr⟩ | ⟨e, -, hr⟩ | ⟨-, hr⟩ | ⟨a, -, hr⟩ | ⟨a, -, hr⟩ <;> rw [hr] at h <;>
    cases h
  · exact .inl rfl
  · exact .inl rfl
  · exact .inr rfl

/-- The operation an instruction runs, on the parameters and the input buffer. -/
def opOf (i : Instr) (p : Params) (inBuf : Memory) : Op Response :=
  match i with
  | .gaPack main middle sub => gaPack main middle sub
  | .gaUnpack byte0 byte1 => gaUnpack byte0 byte1
  | .iaPack area line device => iaPack area line device
  | .iaUnpack byte0 byte1 => iaUnpack byte0 byte1
  | .hdrPack st tl => hdrPack st tl
  | .hdrUnpack n => hdrUnpack p inBuf n
  | .tailPack ds apci value => tailPack ds apci value
  | .tailUnpack sb bN bN1 bN2 => tailUnpack p sb bN bN1 bN2
  | .treqPack ch seq mc main middle sub ds apci value => treqPack ch seq mc main middle sub ds apci value
  | .treqUnpack n => treqUnpack p inBuf n

/-- Every meaning is the completion of its operation: what holds of every completion holds of every instruction. -/
theorem exec_eq_complete (i : Instr) (s : State) : exec i s = complete (opOf i s.params s.inBuf) s := by
  cases i <;> rfl

/-- Everything a host interaction that answers a next state can do, with the condition it has. -/
theorem hostStep_next {a : HostAction} {s t : State} (h : hostStep a s = .next t) :
    (∃ k b, a = .writeIn k b ∧ k < s.params.inCap ∧ s.busy = false
      ∧ t = { s with inBuf := Memory.set inBlank s.inBuf k b })
    ∨ (∃ k b, a = .writeIn k b ∧ k < s.params.inCap ∧ s.busy = true
      ∧ t = { s with
          inBuf := Memory.set inBlank s.inBuf k (Config.freeByte s.draws)
          faults := { s.faults with hostInWriteWhileBusy := true }
          draws := s.draws + 1 })
    ∨ (∃ w, a = .issue w ∧ s.busy = false ∧ t = { s with cmd := w, busy := true, respValid := false })
    ∨ (a = .reset ∧ t = { State.reset with
          params := s.params, faults := s.faults, agenda := s.agenda, replies := s.replies, draws := s.draws })
    ∨ (∃ r, t = { s with replies := r :: s.replies }
      ∧ ((a = .wait ∧ r = .flags s.busy s.respValid)
        ∨ (a = .readResponse ∧ s.respValid = true ∧ r = .response s.resp))) := by
  cases a with
  | writeIn k b =>
    simp only [hostStep, hostWriteIn] at h
    split at h
    · cases h
    · rename_i hk
      split at h <;> cases h
      · exact .inr (.inl ⟨k, b, rfl, Nat.not_le.1 hk, ‹_›, rfl⟩)
      · exact .inl ⟨k, b, rfl, Nat.not_le.1 hk, by simpa using ‹¬ s.busy = true›, rfl⟩
  | issue w =>
    simp only [hostStep, hostIssue] at h
    split at h <;> cases h
    exact .inr (.inr (.inl ⟨w, rfl, by simpa using ‹¬ s.busy = true›, rfl⟩))
  | wait => cases h; exact .inr (.inr (.inr (.inr ⟨_, rfl, .inl ⟨rfl, rfl⟩⟩)))
  | readResponse =>
    simp only [hostStep, hostReadResponse] at h
    split at h <;> cases h
    exact .inr (.inr (.inr (.inr ⟨_, rfl, .inr ⟨rfl, ‹_›, rfl⟩⟩)))
  | reset => cases h; exact .inr (.inr (.inr (.inl ⟨rfl, rfl⟩)))

/-- After an error CMD can be read again. -/
theorem readAgain_command {s : State} (h : s.afterError = true) : s.readAgain .command = some (.command s.cmd) := by
  simp [State.readAgain, h]

/-- After an error a byte of IN can be read again. -/
theorem readAgain_inByte {s : State} (h : s.afterError = true) {a : Nat} (ha : a < s.params.inCap) :
    s.readAgain (.inByte a) = some (.inByte (s.inByte a)) := by
  simp [State.readAgain, h, Nat.not_le.2 ha]

/-- Without an error nothing can. -/
theorem readAgain_none {s : State} (h : s.afterError = false) (o : HostLook) : s.readAgain o = none := by
  simp [State.readAgain, h]

/-- Everything a turn can be. -/
theorem takeTurn_cases (s : State) :
    (s.agenda = [] ∧ takeTurn s = unitTurn s)
    ∨ (∃ rest, s.agenda = .unit :: rest ∧ takeTurn s = unitTurn { s with agenda := rest })
    ∨ (∃ a rest, s.agenda = .host a :: rest ∧ takeTurn s = hostStep a { s with agenda := rest }) := by
  unfold takeTurn
  split
  · exact .inl ⟨by assumption, rfl⟩
  · exact .inr (.inl ⟨_, by assumption, rfl⟩)
  · exact .inr (.inr ⟨_, _, by assumption, rfl⟩)

end Sys2Proof.Machine
end

