-- ==== Sys2Proof/Laws/PerInstr.lean ====
section
/-! SUPPORT. What holds of every instruction as syntax, one lemma per constructor. -/

namespace Sys2Proof

namespace Laws.EncodedOpcode

/-- The opcode of an instruction's encoding is its own (spec 30_encoding.md R70). -/
def Statement (i : Instr) : Prop := opcodeOf (encode i) = i.opcode

theorem gaPack (main middle sub : Byte) : Statement (.gaPack main middle sub) := opcodeOf_wordOfBytes ..

theorem gaUnpack (byte0 byte1 : Byte) : Statement (.gaUnpack byte0 byte1) := opcodeOf_wordOfBytes ..

theorem iaPack (area line device : Byte) : Statement (.iaPack area line device) := opcodeOf_wordOfBytes ..

theorem iaUnpack (byte0 byte1 : Byte) : Statement (.iaUnpack byte0 byte1) := opcodeOf_wordOfBytes ..

theorem hdrPack (serviceType totalLength : Half) : Statement (.hdrPack serviceType totalLength) :=
  opcodeOf_wordOfBytes ..

theorem hdrUnpack (inLen : Half) : Statement (.hdrUnpack inLen) := opcodeOf_wordOfBytes ..

theorem tailPack (dataSize apci value : Byte) : Statement (.tailPack dataSize apci value) := opcodeOf_wordOfBytes ..

theorem tailUnpack (sizeByte byteN byteN1 byteN2 : Byte) : Statement (.tailUnpack sizeByte byteN byteN1 byteN2) :=
  opcodeOf_wordOfBytes ..

theorem treqPack (channelId sequenceCounter messageCode main middle sub dataSize apci value : Byte) :
    Statement (.treqPack channelId sequenceCounter messageCode main middle sub dataSize apci value) :=
  opcodeOf_wordOfBytes ..

theorem treqUnpack (inLen : Half) : Statement (.treqUnpack inLen) := opcodeOf_wordOfBytes ..

end Laws.EncodedOpcode
end Sys2Proof
end

