-- ==== Sys2Proof/Tests/Slice0.lean ====
section
/-! SUPPORT. Tests of the model. Every expected result is one of spec/95_test_vectors.md or a worked example of a rule,
never the model's own answer. The second half holds a witness for the hypotheses of every statement. -/

namespace Sys2Proof.Tests

open Sys2Proof.Machine Sys2Proof.Claims

/-- The response after a step, if it answers a next state. -/
def respOf (o : Host.Outcome State Fault Refusal) : Option Response :=
  match o with
  | .next t => some t.resp
  | .fault _ => none
  | .refused _ => none

/-- The state after a step, if there is one. -/
def nextOf (o : Host.Outcome State Fault Refusal) : Option State :=
  match o with
  | .next t => some t
  | .fault _ => none
  | .refused _ => none

/-- Bytes listed from an address up. -/
def bytesFrom : Nat → List Byte → Memory
  | _, [] => []
  | a, b :: rest => (a, b) :: bytesFrom (a + 1) rest

/-- A block right after reset whose host has written these bytes from `IN[0]` up. -/
def withIn (bytes : List Byte) : State := { State.reset with inBuf := bytesFrom 0 bytes }

/-- The frame of V1. -/
def v1 : List Byte :=
  [0x06#8, 0x10#8, 0x04#8, 0x20#8, 0x00#8, 0x15#8, 0x04#8, 0x07#8, 0x00#8, 0x00#8, 0x11#8, 0x00#8, 0xBC#8, 0xE0#8, 0x00#8,
    0x00#8, 0x0C#8, 0x0A#8, 0x01#8, 0x00#8, 0x81#8]

/-- The 22-byte frame of 95_test_vectors.md part 2, frame family, first row. -/
def v22 : List Byte :=
  [0x06#8, 0x10#8, 0x04#8, 0x20#8, 0x00#8, 0x16#8, 0x04#8, 0x01#8, 0xFF#8, 0x00#8, 0x11#8, 0x00#8, 0xBC#8, 0xE0#8, 0x00#8,
    0x00#8, 0xFF#8, 0xFF#8, 0x02#8, 0x00#8, 0x40#8, 0xAB#8]

/-- V1 with one byte changed. -/
def v1With (a : Nat) (b : Byte) : List Byte := v1.set a b

/-- The response to a command word issued to a block. -/
def answer (s : State) (w : CmdWord) : Option Response := respOf (step (s.withPending w))

/-- STATUS, OUT_LEN, `OUT[0 .. OUT_LEN-1]` and the results of the response to a command word. -/
def shown (s : State) (w : CmdWord) : Option (Byte × Byte × List Byte × Results) :=
  (answer s w).map fun r => (r.status, r.outLen, r.outBytes, r.results)

/-! ### WellFormed: an ill-formed term for each check -/

theorem test_chosen_params_wellFormed : Config.chosenParams.wellFormed = true := by decide
theorem test_small_inCap_refused : { Config.chosenParams with inCap := 21 }.wellFormed = false := by decide
theorem test_tags_without_0420_refused : { Config.chosenParams with knownTags := [0x0421#16] }.wellFormed = false := by decide
theorem test_tags_with_9999_refused :
    { Config.chosenParams with knownTags := [0x0420#16, 0x9999#16] }.wellFormed = false := by decide
theorem test_other_mask_refused : { Config.chosenParams with dsDecodeMask := 0x1F#8 }.wellFormed = false := by decide
theorem test_main_32_illFormed : (Instr.gaPack 32#8 0#8 0#8).wellFormed = false := by decide
theorem test_middle_8_illFormed : (Instr.gaPack 31#8 8#8 0#8).wellFormed = false := by decide
theorem test_area_16_illFormed : (Instr.iaPack 16#8 0#8 0#8).wellFormed = false := by decide
theorem test_line_16_illFormed : (Instr.iaPack 15#8 16#8 0#8).wellFormed = false := by decide
theorem test_data_size_3_illFormed : (Instr.tailPack 3#8 0#8 0#8).wellFormed = false := by decide
theorem test_apci_16_illFormed : (Instr.treqPack 1#8 0#8 0x11#8 1#8 4#8 10#8 1#8 16#8 1#8).wellFormed = false := by decide
theorem test_v1_wellFormed : (Instr.treqPack 7#8 0#8 0x11#8 1#8 4#8 10#8 1#8 2#8 1#8).wellFormed = true := by decide

/-! ### Decode: a word per constructor, written from the encoding of R66, R67 and R70 -/

theorem test_decode_ga_pack : decode 0x000000000000FF071F01#80 = .ok (.gaPack 31#8 7#8 255#8) := by decide
theorem test_decode_ga_unpack : decode 0x000000000000000A0C02#80 = .ok (.gaUnpack 0x0C#8 0x0A#8) := by decide
theorem test_decode_ia_pack : decode 0x00000000000000100F03#80 = .ok (.iaPack 15#8 16#8 0#8) := by decide
theorem test_decode_ia_unpack : decode 0x000000000000000A0C04#80 = .ok (.iaUnpack 0x0C#8 0x0A#8) := by decide
theorem test_decode_hdr_pack : decode 0x00000000001500200410#80 = .ok (.hdrPack 0x0420#16 21#16) := by decide
theorem test_decode_hdr_unpack : decode 0x00000000000000150011#80 = .ok (.hdrUnpack 21#16) := by decide
theorem test_decode_tail_pack : decode 0x000000000000010F0120#80 = .ok (.tailPack 1#8 15#8 1#8) := by decide
theorem test_decode_tail_unpack : decode 0x000000000000C1030121#80 = .ok (.tailUnpack 1#8 3#8 0xC1#8 0#8) := by decide
theorem test_decode_treq_pack :
    decode 0xAB0102FF071F11FF0130#80 = .ok (.treqPack 1#8 0xFF#8 0x11#8 31#8 7#8 255#8 2#8 1#8 0xAB#8) := by decide
theorem test_decode_treq_unpack : decode 0x00000000000000160031#80 = .ok (.treqUnpack 22#16) := by decide
theorem test_decode_reserved_00 : decode 0#80 = .error (.reservedOpcode 0#8) := by decide
theorem test_decode_reserved_12 : decode 0x0000000000000A040112#80 = .error (.reservedOpcode 0x12#8) := by decide
theorem test_encode_treq_pack :
    encode (.treqPack 7#8 0#8 0x11#8 1#8 4#8 10#8 1#8 2#8 1#8) = 0x0102010A040111000730#80 := by decide
theorem test_decode_bytes_truncated : decodeBytes [0x01#8, 1#8, 4#8] = .error .truncated := by decide
theorem test_decode_table_word : decodeTableWord 8 0x31 = some (.treqUnpack 0#16) := by decide
theorem test_decode_table_word_drops_high_bits : decodeTableWord 8 0xFF02 = some (.gaUnpack 0#8 0#8) := by decide

/-! ### The operations: vectors of 95_test_vectors.md -/

theorem test_ga_pack : shown State.reset 0x0000000000000A040101#80 = some (0#8, 2#8, [0x0C#8, 0x0A#8], {}) := by decide
theorem test_ga_pack_main_32 : answer State.reset 0x00000000000000002001#80 = some { status := 0x02#8 } := by decide
theorem test_ga_unpack : shown State.reset 0x00000000000000238102#80 = some (0#8, 0#8, [], { r0 := 16#8, r1 := 1#8, r2 := 35#8 }) := by decide
theorem test_ia_pack : shown State.reset 0x00000000000003020103#80 = some (0#8, 2#8, [0x12#8, 0x03#8], {}) := by decide
theorem test_ia_pack_line_16 : answer State.reset 0x00000000000000100F03#80 = some { status := 0x02#8 } := by decide
theorem test_ia_unpack : shown State.reset 0x000000000000005AA504#80 = some (0#8, 0#8, [], { r0 := 10#8, r1 := 5#8, r2 := 90#8 }) := by decide
theorem test_hdr_pack : shown State.reset 0x00000000001500200410#80
    = some (0#8, 6#8, [0x06#8, 0x10#8, 0x04#8, 0x20#8, 0x00#8, 0x15#8], {}) := by decide
theorem test_hdr_unpack_reads_through : shown (withIn [0x07#8, 0x20#8, 0x04#8, 0x20#8, 0x00#8, 0x15#8]) 0x00000000000000060011#80
    = some (0#8, 0#8, [], { r0 := 7#8, r1 := 0x20#8, r2 := 4#8, r3 := 0x20#8, r4 := 0#8, r5 := 0x15#8 }) := by decide
theorem test_hdr_unpack_unknown_tag :
    answer (withIn [0x06#8, 0x10#8, 0x99#8, 0x99#8, 0x00#8, 0x06#8]) 0x00000000000000060011#80 = some { status := 0x04#8 } := by decide
theorem test_tail_pack_masks_value : shown State.reset 0x000000000000FE020120#80 = some (0#8, 3#8, [0x01#8, 0x00#8, 0x80#8], {}) := by decide
theorem test_tail_pack_size_before_apci : answer State.reset 0x00000000000000100320#80 = some { status := 0x05#8 } := by decide
theorem test_tail_unpack_nibble : shown State.reset 0x00000000007F4002F221#80
    = some (0#8, 0#8, [], { r0 := 2#8, r1 := 9#8, r2 := 0x7F#8 }) := by decide
theorem test_tail_unpack_mask_FF :
    answer { State.reset with params := { Config.chosenParams with dsDecodeMask := 0xFF#8 } } 0x00000000000081001121#80
      = some { status := 0x05#8 } := by decide
theorem test_treq_pack_v1 : shown State.reset 0x0102010A040111000730#80 = some (0#8, 21#8, v1, {}) := by decide
theorem test_treq_pack_v22 : shown State.reset 0xAB0102FF071F11FF0130#80 = some (0#8, 22#8, v22, {}) := by decide
theorem test_treq_unpack_v1 : shown (withIn v1) 0x00000000000000150031#80
    = some (0#8, 0#8, [], ⟨0x07#8, 0x00#8, 0x11#8, 1#8, 4#8, 10#8, 1#8, 2#8, 1#8⟩) := by decide
theorem test_treq_unpack_trailing_byte :
    answer (withIn ((v22.set 5 0x17#8) ++ [0#8])) 0x00000000000000170031#80 = some { status := 0x03#8 } := by decide
theorem test_reserved_opcode : answer State.reset 0x0000000000000A040112#80 = some { status := 0x07#8 } := by decide

/-! ### The transaction -/

/-- P5: the fault is recorded and the machine goes on. -/
theorem test_unwritten_read_recorded :
    (nextOf (step (State.reset.withPending 0x00000000000000060011#80))).map (fun t => (t.faults, t.busy, t.respValid))
      = some (⟨true, false⟩, false, true) := by decide

theorem test_issue : (nextOf (step { State.reset with agenda := [.host (.issue 1#80)] })).map (fun t => (t.cmd, t.busy, t.respValid))
    = some (1#80, true, false) := by decide

theorem test_issue_while_busy_refused :
    step { State.reset with busy := true, agenda := [.host (.issue 1#80)] } = .refused .issueWhileBusy := rfl

theorem test_read_before_valid_refused :
    step { State.reset with agenda := [.host .readResponse] } = .refused .readWhileNotValid := rfl

theorem test_write_in : (nextOf (step { State.reset with agenda := [.host (.writeIn 31 0xAB#8)] })).map (·.inBuf)
    = some [(31, 0xAB#8)] := by decide

theorem test_write_in_while_busy_recorded :
    (nextOf (step { State.reset with busy := true, agenda := [.host (.writeIn 0 0xAB#8)] })).map (·.faults)
      = some ⟨false, true⟩ := by decide

theorem test_write_outside_in : step { State.reset with agenda := [.host (.writeIn 32 0#8)] } = .fault (.inAddressOutside 32) := rfl

/-- The end of P4, an error: CMD is 0x01020320. -/
theorem test_read_command_again :
    (nextOf (step (State.reset.withPending 0x01020320#80))).map (fun t => (t.resp.status, t.readAgain .command))
      = some (0x05#8, some (.command 0x01020320#80)) := by decide

/-- V1's frame in IN and the LengthError of `treq_unpack 20`: IN[20] is V1's last byte. -/
theorem test_read_in_again :
    (nextOf (step ((withIn v1).withPending 0x00000000000000140031#80))).map
      (fun t => (t.resp.status, t.readAgain (.inByte 20))) = some (0x03#8, some (.inByte (some 0x81#8))) := by decide

theorem test_reset_abandons :
    (nextOf (step { withIn v1 with busy := true, cmd := 5#80, agenda := [.host .reset] })) = some State.reset := by decide

theorem test_idle_block_keeps_its_state : nextOf (step State.reset) = some State.reset := by decide

theorem test_reset_state_ends_well : endsWell 1 State.reset = true := by decide

/-! ### The assembler -/

theorem test_asm_comment_and_blanks : assembleLine "  ga_pack 1, 0x4,10 # dest".toList = .ok (some (.gaPack 1#8 4#8 10#8)) := by decide

/-- `treq_write 7, "1/4/10", 1, 1` is the build of V1. -/
theorem test_asm_treq_write :
    assembleLine ("treq_write 7, ".toList ++ [quoteMark] ++ "1/4/10".toList ++ [quoteMark] ++ ", 1, 1".toList)
      = .ok (some (.treqPack 7#8 0#8 0x11#8 1#8 4#8 10#8 1#8 2#8 1#8)) := by decide

theorem test_asm_range_is_the_units : assembleProgram 0 ["ga_pack 32, 0, 0".toList] = .ok [0x00000000000000002001#80] := by decide
theorem test_asm_width : assembleProgram 0 ["# one".toList, "ga_pack 256, 0, 0".toList] = .error (1, .outOfWidth) := by decide
theorem test_asm_two_segments :
    assemble .iaPack [.text "1.2".toList] = .error .segmentCount := by decide

/-! ### Witnesses: states and operands that meet the hypotheses of each statement, clause by clause, at the boundaries -/

theorem witness_Admitted : Admitted State.reset := by unfold Admitted; decide
theorem witness_Admitted_mask_FF : Admitted { State.reset with params := ⟨22, 0xFF#8, [0x0420#16]⟩ } := by unfold Admitted; decide

theorem witness_DecodeAccepts : opcodes.contains (OP 0x00000000000000000031#80) = true
    ∧ opcodes.contains (OP 0x00000000000000000032#80) = false := by decide

theorem witness_ReservedOpcode_alone : ∃ (s : State) (rest : List Turn), s.busy = true
    ∧ opcodes.contains (OP s.cmd) = false ∧ s.agenda = [] ∧ rest = [] :=
  ⟨{ State.reset with busy := true }, [], by decide⟩

theorem witness_ReservedOpcode_turn : ∃ (s : State) (rest : List Turn), s.busy = true
    ∧ opcodes.contains (OP s.cmd) = false ∧ s.agenda = .unit :: rest :=
  ⟨State.reset.withPending 0xFF#80, [], by decide⟩

theorem witness_IgnoredFields : OP 0xEE000000000003020101#80 = OP 0x00000000000003020101#80
    ∧ ∀ i, i < usedFields (OP 0xEE000000000003020101#80) →
      F 0xEE000000000003020101#80 i = F 0x00000000000003020101#80 i := by decide

theorem witness_OpcodeClauses : OP 0x01#80 = 0x01#8 ∧ OP 0x02#80 = 0x02#8 ∧ OP 0x03#80 = 0x03#8 ∧ OP 0x04#80 = 0x04#8
    ∧ OP 0x10#80 = 0x10#8 ∧ OP 0x11#80 = 0x11#8 ∧ OP 0x20#80 = 0x20#8 ∧ OP 0x21#80 = 0x21#8 ∧ OP 0x30#80 = 0x30#8
    ∧ OP 0x31#80 = 0x31#8 := by decide

/-- GaPackWritesTheWireBytes, GroupAddressRoundTrip, and TREQ_PACK's address clauses. -/
theorem witness_group_address : (31#8 ≤ 31#8 ∧ 7#8 ≤ 7#8) ∧ 31#8 < 32#8 ∧ 7#8 < 8#8 := by decide

/-- IaPackWritesTheWireBytes, IndividualAddressRoundTrip. -/
theorem witness_individual_address : (15#8 ≤ 15#8 ∧ 15#8 ≤ 15#8) ∧ 15#8 < 16#8 := by decide

/-- TailPackPacksOrRaises, TailRoundTrip, TreqPackBuildsTheFrame: sizes 1, 2, 0 and 3, APCI 15 and 16. -/
theorem witness_tail : (15#8 ≤ 15#8) ∧ (0#8 ≠ 1#8 ∧ 0#8 ≠ 2#8) ∧ (3#8 ≠ 1#8 ∧ 3#8 ≠ 2#8)
    ∧ ((2#8 = 1#8 ∨ 2#8 = 2#8) ∧ 15#8 < 16#8) ∧ (1#8 = 1#8 ∨ 1#8 = 2#8) := by decide

theorem witness_TailUnpack : 0xF1#8 &&& State.reset.params.dsDecodeMask = 1#8
    ∧ 0x02#8 &&& State.reset.params.dsDecodeMask = 2#8
    ∧ (0x03#8 &&& State.reset.params.dsDecodeMask ≠ 1#8 ∧ 0x03#8 &&& State.reset.params.dsDecodeMask ≠ 2#8) := by decide

theorem witness_FrameRoundTrip : (31#8 ≤ 31#8 ∧ 7#8 ≤ 7#8) ∧ (1#8 = 1#8 ∨ 1#8 = 2#8) ∧ 15#8 ≤ 15#8 ∧ 1#8 ≤ 1#8 := by decide

/-- FrameRoundTrip and BothMasksDecodeTheFramesBuilt: a host that copied the frame of V1 back into IN. -/
theorem witness_frame_copied : ∃ s' t : State, exec (.treqPack 7#8 0#8 0x11#8 1#8 4#8 10#8 1#8 2#8 1#8) State.reset = .next t
    ∧ t.resp.status = 0x00#8 ∧ Admitted s' ∧ ∀ a, a < t.resp.outLen.toNat → s'.inByte a = some (t.resp.outByte a) :=
  ⟨withIn v1, _, rfl, by unfold Admitted; decide⟩

/-- HdrUnpackReadsTheHeader, HeaderRoundTrip: below six, an unknown tag, a known tag. -/
theorem witness_HdrUnpack_short : 5#16 < 6#16 := by decide

theorem witness_HdrUnpack_unknown : ∃ s : State, Admitted s ∧ 6#16 ≤ 6#16 ∧ s.inByte 0 = some 0x06#8 ∧ s.inByte 1 = some 0x10#8
    ∧ s.inByte 2 = some 0x99#8 ∧ s.inByte 3 = some 0x99#8 ∧ s.inByte 4 = some 0x00#8 ∧ s.inByte 5 = some 0x06#8
    ∧ (0x99#8 ++ 0x99#8 : Half) ∉ s.params.knownTags :=
  ⟨withIn [0x06#8, 0x10#8, 0x99#8, 0x99#8, 0x00#8, 0x06#8], by unfold Admitted; decide⟩

theorem witness_HdrUnpack_known : ∃ s : State, Admitted s ∧ 6#16 ≤ 0x1000#16 ∧ s.inByte 0 = some 0x06#8
    ∧ s.inByte 1 = some 0x10#8 ∧ s.inByte 2 = some 0x02#8 ∧ s.inByte 3 = some 0x05#8 ∧ s.inByte 4 = some 0x10#8
    ∧ s.inByte 5 = some 0x00#8 ∧ (0x02#8 ++ 0x05#8 : Half) ∈ s.params.knownTags :=
  ⟨withIn [0x06#8, 0x10#8, 0x02#8, 0x05#8, 0x10#8, 0x00#8], by unfold Admitted; decide⟩

theorem witness_HeaderRoundTrip : ∃ s' t : State, exec (.hdrPack 0x0420#16 21#16) State.reset = .next t ∧ Admitted s'
    ∧ (∀ a, a < 6 → s'.inByte a = some (t.resp.outByte a)) ∧ 0x0420#16 ∈ s'.params.knownTags
    ∧ 0x9999#16 ∉ s'.params.knownTags :=
  ⟨withIn v1, _, rfl, by unfold Admitted; decide⟩

theorem witness_HeaderRoundTrip_unknown : ∃ s' t : State, exec (.hdrPack 0x9999#16 6#16) State.reset = .next t ∧ Admitted s'
    ∧ (∀ a, a < 6 → s'.inByte a = some (t.resp.outByte a)) ∧ 0x9999#16 ∉ s'.params.knownTags :=
  ⟨withIn [0x06#8, 0x10#8, 0x99#8, 0x99#8, 0x00#8, 0x06#8], _, rfl, by unfold Admitted; decide⟩

/-- TreqPackIsAComposition: both parts succeed, the address fails, the tail fails. -/
theorem witness_Composition :
    (statusOf (exec (.gaPack 31#8 7#8 0#8) State.reset) = some 0x00#8
      ∧ statusOf (exec (.tailPack 2#8 15#8 0#8) State.reset) = some 0x00#8)
    ∧ statusOf (exec (.gaPack 32#8 0#8 0#8) State.reset) ≠ some 0x00#8
    ∧ statusOf (exec (.tailPack 3#8 0#8 0#8) State.reset) ≠ some 0x00#8 := by decide

/-- TreqUnpackParsesTheFrame, check by check. -/
theorem witness_TreqUnpack_tag : ∃ s : State, Admitted s ∧ 6#16 ≤ 6#16 ∧ s.inByte 2 = some 0x04#8 ∧ s.inByte 3 = some 0x21#8
    ∧ (0x04#8 ++ 0x21#8 : Half) ≠ 0x0420#16 :=
  ⟨withIn (v1With 3 0x21#8), by unfold Admitted; decide⟩

theorem witness_TreqUnpack_lengths : ∃ s : State, Admitted s ∧ s.inByte 2 = some 0x04#8 ∧ s.inByte 3 = some 0x20#8
    ∧ s.inByte 4 = some 0x00#8 ∧ s.inByte 5 = some 0x12#8 ∧ (6#16 ≤ 19#16 ∧ (0x00#8 ++ 0x12#8 : Half) ≠ 19#16)
    ∧ (6#16 ≤ 18#16 ∧ (0x00#8 ++ 0x12#8 : Half) = 18#16 ∧ 18#16 < 19#16) :=
  ⟨withIn (v1With 5 0x12#8), by unfold Admitted; decide⟩

theorem witness_TreqUnpack_size : ∃ s : State, Admitted s ∧ s.inByte 2 = some 0x04#8 ∧ s.inByte 3 = some 0x20#8
    ∧ s.inByte 4 = some 0x00#8 ∧ s.inByte 5 = some 0x13#8 ∧ (0x00#8 ++ 0x13#8 : Half) = 19#16 ∧ 19#16 ≤ 19#16
    ∧ s.inByte 18 = some 0x03#8 ∧ 3#8 = 0x03#8 &&& s.params.dsDecodeMask ∧ 3#8 ≠ 1#8 ∧ 3#8 ≠ 2#8 :=
  ⟨withIn ((v1With 5 0x13#8).set 18 0x03#8), by unfold Admitted; decide⟩

theorem witness_TreqUnpack_frame_length : ∃ s : State, Admitted s ∧ s.inByte 2 = some 0x04#8 ∧ s.inByte 3 = some 0x20#8
    ∧ s.inByte 4 = some 0x00#8 ∧ s.inByte 5 = some 0x15#8 ∧ (0x00#8 ++ 0x15#8 : Half) = 21#16 ∧ 19#16 ≤ 21#16
    ∧ s.inByte 18 = some 0x02#8 ∧ 2#8 = 0x02#8 &&& s.params.dsDecodeMask ∧ 21#16 ≠ 20#16 + BitVec.setWidth 16 2#8 :=
  ⟨withIn (v1With 18 0x02#8), by unfold Admitted; decide⟩

theorem witness_TreqUnpack_boolean : ∃ s : State, Admitted s ∧ s.inByte 2 = some 0x04#8 ∧ s.inByte 3 = some 0x20#8
    ∧ s.inByte 4 = some 0x00#8 ∧ s.inByte 5 = some 0x15#8 ∧ s.inByte 18 = some 0x01#8
    ∧ 1#8 = 0x01#8 &&& s.params.dsDecodeMask ∧ 21#16 = 20#16 + BitVec.setWidth 16 1#8
    ∧ s.inByte 7 = some 0x07#8 ∧ s.inByte 8 = some 0x00#8 ∧ s.inByte 10 = some 0x11#8 ∧ s.inByte 16 = some 0x0C#8
    ∧ s.inByte 17 = some 0x0A#8 ∧ s.inByte 19 = some 0x00#8 ∧ s.inByte 20 = some 0x81#8 :=
  ⟨withIn v1, by unfold Admitted; decide⟩

theorem witness_TreqUnpack_byte : ∃ s : State, Admitted s ∧ s.inByte 2 = some 0x04#8 ∧ s.inByte 3 = some 0x20#8
    ∧ s.inByte 4 = some 0x00#8 ∧ s.inByte 5 = some 0x16#8 ∧ s.inByte 18 = some 0x02#8
    ∧ 2#8 = 0x02#8 &&& s.params.dsDecodeMask ∧ 22#16 = 20#16 + BitVec.setWidth 16 2#8
    ∧ s.inByte 7 = some 0x01#8 ∧ s.inByte 8 = some 0xFF#8 ∧ s.inByte 10 = some 0x11#8 ∧ s.inByte 16 = some 0xFF#8
    ∧ s.inByte 17 = some 0xFF#8 ∧ s.inByte 19 = some 0x00#8 ∧ s.inByte 20 = some 0x40#8 ∧ s.inByte 21 = some 0xAB#8 :=
  ⟨withIn v22, by unfold Admitted; decide⟩

/-- TreqUnpackIgnoresTheFixedBytes: inputs that differ at a byte the parser does not read. -/
theorem witness_IgnoresTheFixedBytes : ∃ s s' t : State, s'.params = s.params ∧ s'.inBuf ≠ s.inBuf
    ∧ (∀ a, a ∉ [0, 1, 6, 9, 11, 12, 13, 14, 15] → s'.inByte a = s.inByte a)
    ∧ exec (.treqUnpack 21#16) s = .next t ∧ Defined s t := by
  refine ⟨withIn v1, { withIn v1 with inBuf := Memory.set inBlank (bytesFrom 0 v1) 0 0xFF#8 }, _, rfl, by decide,
    fun a ha => ?_, rfl, by unfold Defined; decide⟩
  have h : a ≠ 0 := fun h => ha (h ▸ List.mem_cons_self ..)
  simp [State.inByte, Memory.get_set, h, withIn]

/-- NoByteIsReadPastTheDeclaredLength, HDR_UNPACK: the same header, another byte after it. -/
theorem witness_NoBytePast_header : ∃ s s' t : State, s'.params = s.params ∧ s'.inBuf ≠ s.inBuf
    ∧ (∀ a, a < (6#16).toNat → a < 6 → s'.inByte a = s.inByte a) ∧ exec (.hdrUnpack 6#16) s = .next t ∧ Defined s t :=
  ⟨withIn (v1.take 6), withIn v1, _, rfl, by decide, by decide, rfl, by unfold Defined; decide⟩

/-- NoByteIsReadPastTheDeclaredLength, TREQ_UNPACK: the same frame, another byte after it. -/
theorem witness_NoBytePast_frame : ∃ s s' t : State, s'.params = s.params ∧ s'.inBuf ≠ s.inBuf
    ∧ (∀ a, a < (21#16).toNat → a < 22 → s'.inByte a = s.inByte a) ∧ exec (.treqUnpack 21#16) s = .next t ∧ Defined s t :=
  ⟨withIn v1, withIn (v1 ++ [0xAA#8]), _, rfl, by decide, by decide, rfl, by unfold Defined; decide⟩

/-- NoCarriedState: the same command and input after different transactions. -/
theorem witness_NoCarriedState : ∃ s s' t : State, s'.params = s.params ∧ s'.cmd = s.cmd ∧ s' ≠ s
    ∧ (∀ a, s'.inByte a = s.inByte a) ∧ unitStep s = .next t ∧ Defined s t :=
  ⟨{ withIn v1 with cmd := 0x00000000000000150031#80 },
    { withIn v1 with cmd := 0x00000000000000150031#80, resp := { status := 0x03#8 }, respValid := true }, _, rfl, rfl,
    by decide, fun _ => rfl, rfl, by unfold Defined; decide⟩

/-- EachOperationRaisesOnlyItsCodes, ErrorLeavesNoPartialResult. -/
theorem witness_error : ∃ t : State, exec (.gaPack 32#8 0#8 0#8) State.reset = .next t ∧ Defined State.reset t
    ∧ t.resp.status ≠ 0x00#8 :=
  ⟨_, rfl, by unfold Defined; decide⟩

theorem witness_unit_reserved : ∃ t : State, unitStep State.reset = .next t ∧ Defined State.reset t
    ∧ opcodes.contains (OP State.reset.cmd) = false :=
  ⟨_, rfl, by unfold Defined; decide⟩

/-- UnwrittenReadIsRecorded, clause by clause: nothing written; the tag alone; the header; all but the channel; all but
byte 21. -/
theorem witness_Unwritten_header : ∃ s : State, Admitted s ∧ 6#16 ≤ 6#16 ∧ (∃ a, a < 6 ∧ s.inByte a = none)
    ∧ s.inByte 5 = none :=
  ⟨withIn (v1.take 5), by unfold Admitted; decide⟩

theorem witness_Unwritten_tag : ∃ s : State, Admitted s ∧ 6#16 ≤ 6#16 ∧ s.inByte 2 = some 0x04#8 ∧ s.inByte 3 = none :=
  ⟨withIn (v1.take 3), by unfold Admitted; decide⟩

theorem witness_Unwritten_length : ∃ s : State, Admitted s ∧ s.inByte 2 = some 0x04#8 ∧ s.inByte 3 = some 0x20#8
    ∧ s.inByte 4 = none :=
  ⟨withIn [0x06#8, 0x10#8, 0x04#8, 0x20#8], by unfold Admitted; decide⟩

theorem witness_Unwritten_size : ∃ s : State, Admitted s ∧ s.inByte 2 = some 0x04#8 ∧ s.inByte 3 = some 0x20#8
    ∧ s.inByte 4 = some 0x00#8 ∧ s.inByte 5 = some 0x13#8 ∧ (0x00#8 ++ 0x13#8 : Half) = 19#16 ∧ s.inByte 18 = none :=
  ⟨withIn [0x06#8, 0x10#8, 0x04#8, 0x20#8, 0x00#8, 0x13#8], by unfold Admitted; decide⟩

theorem witness_Unwritten_field : ∃ s : State, Admitted s ∧ s.inByte 2 = some 0x04#8 ∧ s.inByte 3 = some 0x20#8
    ∧ s.inByte 4 = some 0x00#8 ∧ s.inByte 5 = some 0x15#8 ∧ s.inByte 18 = some 0x01#8
    ∧ 1#8 = 0x01#8 &&& s.params.dsDecodeMask ∧ 21#16 = 20#16 + BitVec.setWidth 16 1#8
    ∧ ∃ a ∈ [7, 8, 10, 16, 17, 19, 20], s.inByte a = none :=
  ⟨withIn (v1.take 20), by unfold Admitted; decide⟩

theorem witness_Unwritten_byte21 : ∃ s : State, Admitted s ∧ s.inByte 2 = some 0x04#8 ∧ s.inByte 3 = some 0x20#8
    ∧ s.inByte 4 = some 0x00#8 ∧ s.inByte 5 = some 0x16#8 ∧ s.inByte 18 = some 0x02#8
    ∧ 2#8 = 0x02#8 &&& s.params.dsDecodeMask ∧ 22#16 = 20#16 + BitVec.setWidth 16 2#8 ∧ s.inByte 21 = none :=
  ⟨withIn (v22.take 21), by unfold Admitted; decide⟩

theorem witness_MixedWidth : memRead1 Config.chosenParams (bytesFrom 0 v1) 3 = .ok 0x20#8
    ∧ memRead1 Config.chosenParams (bytesFrom 0 v1) (3 + 1) = .ok 0x00#8 ∧ 20 + 1 < 22 := by decide

/-- StepRunsTheDecodedInstruction: alone, on a turn, and as the host places it. -/
theorem witness_StepRuns : ∃ (s s' : State) (i : Instr), s.busy = true ∧ decode s.cmd = .ok i ∧ s.agenda = []
    ∧ s'.busy = true ∧ decode s'.cmd = .ok i ∧ s'.agenda = [.unit] ∧ decodeTableWord 8 0x31 = some i :=
  ⟨{ State.reset with busy := true, cmd := 0x31#80 }, State.reset.withPending 0x31#80, .treqUnpack 0#16, by decide⟩

theorem witness_Issue : ∃ s s' : State, s.agenda = [.host (.issue 1#80)] ∧ s.busy = false
    ∧ s'.agenda = [.host (.issue 1#80)] ∧ s'.busy = true :=
  ⟨{ State.reset with agenda := [.host (.issue 1#80)] },
    { State.reset with agenda := [.host (.issue 1#80)], busy := true }, by decide⟩

theorem witness_ReadResponse : ∃ s s' : State, s.agenda = [.host .readResponse] ∧ s.respValid = true
    ∧ s'.agenda = [.host .readResponse] ∧ s'.respValid = false :=
  ⟨{ State.reset with agenda := [.host .readResponse], respValid := true },
    { State.reset with agenda := [.host .readResponse] }, by decide⟩

theorem witness_Wait : ∃ s : State, s.agenda = [.host .wait] := ⟨{ State.reset with agenda := [.host .wait] }, rfl⟩

theorem witness_WriteIn : ∃ s s' : State, s.agenda = [.host (.writeIn 31 0xAB#8)] ∧ 31 < s.params.inCap ∧ s.busy = false
    ∧ s'.agenda = [.host (.writeIn 0 0xAB#8)] ∧ 0 < s'.params.inCap ∧ s'.busy = true :=
  ⟨{ State.reset with agenda := [.host (.writeIn 31 0xAB#8)] },
    { State.reset with agenda := [.host (.writeIn 0 0xAB#8)], busy := true }, by decide⟩

theorem witness_WriteOutside : ∃ s : State, s.agenda = [.host (.writeIn 32 0#8)] ∧ s.params.inCap ≤ 32 :=
  ⟨{ State.reset with agenda := [.host (.writeIn 32 0#8)] }, by decide⟩

theorem witness_HostReset : ∃ (s : State) (rest rest' : List Turn), s.busy = true ∧ s.agenda = .host .reset :: rest
    ∧ rest = .unit :: rest' :=
  ⟨{ State.reset with busy := true, agenda := [.host .reset, .unit] }, [.unit], [], by decide⟩

theorem witness_HostReset_last : ∃ (s : State) (rest : List Turn), s.agenda = .host .reset :: rest ∧ rest = [] :=
  ⟨{ State.reset with agenda := [.host .reset] }, [], by decide⟩

theorem witness_Latency : ∃ s : State, Admitted s ∧ s.busy = true ∧ s.agenda = List.replicate 2 (.host .wait) :=
  ⟨{ State.reset with busy := true, agenda := [.host .wait, .host .wait] }, by unfold Admitted; decide⟩

/-- EveryStepKeepsTheInvariant, ParametersNeverChange, EachFieldHasOneWriter, FlagsFollowTheTransaction: a completion
from a state that meets the invariant. -/
theorem witness_step : ∃ s t : State, s.inv = true ∧ step s = .next t ∧ s.busy = true ∧ t.busy = false ∧ t.respValid = true :=
  ⟨(withIn v1).withPending 0x00000000000000150031#80, _, by decide, rfl, by decide⟩

/-- FlagsFollowTheTransaction: BUSY rises, and RESP_VALID falls, at an issue. -/
theorem witness_flags_at_issue : ∃ s t : State, s.inv = true ∧ step s = .next t ∧ s.busy = false ∧ t.busy = true
    ∧ s.respValid = true ∧ t.respValid = false :=
  ⟨{ State.reset with respValid := true, agenda := [.host (.issue 1#80)] }, _, by decide, rfl, by decide⟩

/-- NoStepRemovesAFault: a reset with both names in FAULT. -/
theorem witness_NoStepRemovesAFault : ∃ s t : State, step s = .next t ∧ s.faults = ⟨true, true⟩ :=
  ⟨{ State.reset with faults := ⟨true, true⟩, agenda := [.host .reset] }, _, rfl, rfl⟩

/-- InputStaysAsAtIssue: a wait during a transaction. -/
theorem witness_InputStays : ∃ s t : State, s.busy = true ∧ step s = .next t ∧ t.busy = true
    ∧ t.faults.hostInWriteWhileBusy = false :=
  ⟨{ State.reset with busy := true, agenda := [.host .wait] }, _, rfl, rfl, by decide⟩

/-- InstancesShareNothing, both clauses: the second of two blocks, with another beside it. -/
theorem witness_Instances : ∃ (after : List State) (t : State),
    stepInstance [State.reset, State.reset.withPending 1#80] 1 = some after ∧ (0 : Nat) ≠ 1
    ∧ [State.reset, State.reset.withPending 1#80][1]? = some (State.reset.withPending 1#80)
    ∧ step (State.reset.withPending 1#80) = .next t :=
  ⟨_, _, rfl, by decide, rfl, rfl⟩

theorem witness_PseudoInstructions : splitText '/' "1/4/10".toList = ["1".toList, "4".toList, "10".toList]
    ∧ literalValue "1".toList = some 1 ∧ literalValue "4".toList = some 4 ∧ literalValue "10".toList = some 10
    ∧ splitText '.' "1.4.10".toList = ["1".toList, "4".toList, "10".toList]
    ∧ (splitText '/' "1/4".toList).length ≠ 3 ∧ (splitText '.' "1.2.3.4".toList).length ≠ 3 := by decide

/-- AssemblerChecksOperandWidths: the last value inside each width and the first outside; the texts are those of
witness_PseudoInstructions. -/
theorem witness_OperandWidths : FitByte [0, 255] ∧ ¬ FitByte [0, 256] ∧ FitHalf [0, 65535] ∧ ¬ FitHalf [0, 65536] := by
  unfold FitByte FitHalf; decide

/-- CommandAndInputCanBeReadAgain: a completion that ends in an error, the last byte of IN, and just outside. -/
theorem witness_ReadAgain : ∃ s t : State, unitStep s = .next t ∧ t.resp.status ≠ 0x00#8 ∧ 31 < s.params.inCap
    ∧ s.params.inCap ≤ 32 :=
  ⟨State.reset, _, rfl, by decide⟩

/-- CommandAndInputCanBeReadAgain: no valid response, and a valid response without an error. -/
theorem witness_ReadAgain_none : ∃ s s' : State, s.respValid = false ∧ s'.respValid = true ∧ s'.resp.status = 0x00#8 :=
  ⟨State.reset, { State.reset with respValid := true }, by decide⟩

end Sys2Proof.Tests
end

section
/-! SUPPORT. How an operation can end: a small calculus of postconditions, and what each of the ten operations ends in. -/

namespace Sys2Proof.Machine

/-- The operation ends in a value with `Q`, or in a stop with `E`. -/
def Op.Ends {α : Type} (Q : α → Prop) (E : Stop → Prop) (o : Op α) : Prop :=
  match o with
  | .ok a => Q a
  | .error x => E x

section ends
variable {α β : Type} {Q : α → Prop} {E : Stop → Prop}

@[simp] theorem Op.ends_ok (a : α) : Op.Ends Q E (.ok a) ↔ Q a := Iff.rfl

@[simp] theorem Op.ends_error (x : Stop) : Op.Ends Q E (.error x) ↔ E x := Iff.rfl

@[simp] theorem Op.ends_bind (o : Op β) (f : β → Op α) :
    Op.Ends Q E (o >>= f) ↔ Op.Ends (fun b => Op.Ends Q E (f b)) E o := by
  cases o <;> rfl

@[simp] theorem Op.ends_ite (c : Prop) [Decidable c] (o o' : Op α) :
    Op.Ends Q E (if c then o else o') ↔ (c → Op.Ends Q E o) ∧ (¬ c → Op.Ends Q E o') := by
  by_cases h : c <;> simp [h]

@[simp] theorem Op.ends_raiseIf (c : Bool) (e : Error) {Q : Unit → Prop} :
    Op.Ends Q E (raiseIf c e) ↔ (c = true → E (.raised e)) ∧ (c = false → Q ()) := by
  cases c <;> simp

@[simp] theorem ends_memRead1 (p : Params) (m : Memory) (a : Nat) {Q : Byte → Prop} :
    Op.Ends Q E (memRead1 p m a) ↔ (p.inCap ≤ a → E (.outsideIn a))
      ∧ (a < p.inCap → (Memory.get inBlank m a = none → E .unwritten) ∧ ∀ b, Memory.get inBlank m a = some b → Q b) := by
  rcases memRead1_cases p m a with ⟨ha, h⟩ | ⟨ha, hb, h⟩ | ⟨b, ha, hb, h⟩ <;> rw [h]
  · simp [ha, Nat.not_lt.2 ha]
  · simp [ha, Nat.not_le.2 ha, hb]
  · simp [ha, Nat.not_le.2 ha, hb]

@[simp] theorem ends_memRead2 (p : Params) (m : Memory) (a : Nat) {Q : Half → Prop} :
    Op.Ends Q E (memRead2 p m a)
      ↔ Op.Ends (fun hi => Op.Ends (fun lo => Q (hi ++ lo)) E (memRead1 p m (a + 1))) E (memRead1 p m a) := by
  simp only [memRead2, Op.ends_bind, Op.ends_ok]

/-- What holds of every end of the first part carries over to what follows it. -/
theorem Op.ends_seq {P : β → Prop} {o : Op β} {f : β → Op α} (ho : Op.Ends P E o) (hf : ∀ b, P b → Op.Ends Q E (f b)) :
    Op.Ends Q E (o >>= f) := by
  cases o with
  | ok b => exact hf b ho
  | error x => exact ho

/-- A check goes on where it raises nothing. -/
theorem Op.ends_raiseIf_seq {c : Bool} {e : Error} {f : Unit → Op α} (he : E (.raised e)) (hf : Op.Ends Q E (f ())) :
    Op.Ends Q E (raiseIf c e >>= f) := by
  cases c with
  | true => exact he
  | false => exact hf

/-- An operation that yields no value and comes to no stop but `x` stops with `x`. -/
theorem Op.eq_error_of_ends {o : Op α} {x : Stop} (h : Op.Ends (fun _ => False) (· = x) o) : o = .error x := by
  cases o with
  | ok a => exact h.elim
  | error y => exact congrArg _ h

end ends

/-! ### The working copy of OUT -/

/-- A canonical `OUT` with nothing but zeros from `n` up. -/
def Memory.OutWithin (n : Nat) (m : Memory) : Prop :=
  Memory.wf outBlank Config.outCap m = true ∧ (m.all fun c => decide (c.1 < n)) = true

@[simp] theorem Memory.outWithin_nil (n : Nat) : Memory.OutWithin n [] := ⟨rfl, rfl⟩

/-- A write below `n` stays below `n`. -/
theorem Memory.outWithin_set {n a : Nat} {m : Memory} {b : Byte} (ha : a < n) (hn : n ≤ 22) (hm : Memory.OutWithin n m) :
    Memory.OutWithin n (Memory.set outBlank m a b) :=
  ⟨Memory.wf_set _ _ m a b (ha.trans_le hn) hm.1, Memory.below_set _ n m a b ha hm.2⟩

section writes
variable {E : Stop → Prop} {n a : Nat} {out : Memory}

theorem memWrite1_ends (v : Byte) (ha : a < n) (hn : n ≤ 22) (ho : Memory.OutWithin n out) :
    Op.Ends (Memory.OutWithin n) E (memWrite1 out a v) := by
  rw [memWrite1_of_lt out a v (ha.trans_le hn)]
  exact Memory.outWithin_set ha hn ho

theorem memWrite2_ends (v : Half) (ha : a + 1 < n) (hn : n ≤ 22) (ho : Memory.OutWithin n out) :
    Op.Ends (Memory.OutWithin n) E (memWrite2 out a v) :=
  Op.ends_seq (memWrite1_ends _ (by omega) hn ho) fun _ ho => memWrite1_ends _ ha hn ho

theorem writeHeader_ends (st tl : Half) (h : 6 ≤ n) (hn : n ≤ 22) (ho : Memory.OutWithin n out) :
    Op.Ends (Memory.OutWithin n) E (writeHeader out st tl) :=
  Op.ends_seq (memWrite1_ends _ (by omega) hn ho) fun _ ho =>
    Op.ends_seq (memWrite1_ends _ (by omega) hn ho) fun _ ho =>
      Op.ends_seq (memWrite2_ends _ (by omega) hn ho) fun _ ho => memWrite2_ends _ (by omega) hn ho

theorem writeTail_ends (ds apci value : Byte) (h : a + (if ds = 1#8 then 3 else 4) ≤ n) (hn : n ≤ 22)
    (ho : Memory.OutWithin n out) : Op.Ends (Memory.OutWithin n) E (writeTail out a ds apci value) := by
  have h3 : a + 2 < n := by split at h <;> omega
  refine Op.ends_seq (memWrite1_ends _ (by omega) hn ho) fun out ho => ?_
  refine Op.ends_seq (memWrite1_ends _ (by omega) hn ho) fun out ho => (Op.ends_ite ..).2 ⟨fun _ => ?_, fun hds => ?_⟩
  · exact memWrite1_ends _ h3 hn ho
  · rw [if_neg hds] at h
    exact Op.ends_seq (memWrite1_ends _ h3 hn ho) fun out ho => memWrite1_ends _ h hn ho

end writes

/-! ### The two ends of an operation -/

/-- A success response as 10_state.md R32 has it: STATUS 0x00, a legal OUT_LEN, a canonical OUT with nothing past it. -/
structure Response.IsSuccess (r : Response) : Prop where
  status : r.status = statusOk
  outLen : legalOutLen r.outLen = true
  past : r.zeroPastOutLen = true
  out : Memory.wf outBlank Config.outCap r.out = true

theorem packed_isSuccess {out : Memory} {len : Byte} (hl : legalOutLen len = true)
    (ho : Memory.OutWithin len.toNat out) : (packed out len).IsSuccess :=
  ⟨rfl, hl, ho.2, ho.1⟩

@[simp] theorem unpacked_isSuccess (rs : Results) : (unpacked rs).IsSuccess := ⟨rfl, rfl, rfl, rfl⟩

theorem Response.IsSuccess.legal {r : Response} (h : r.IsSuccess) : r.legal = true := by
  simp only [Response.legal, h.status, h.outLen, h.past, beq_self_eq_true, Bool.true_or, Bool.and_true]
  rfl

theorem errorResponse_legal {e : Error} (h : legalStatus e.code = true) : (errorResponse e).legal = true := by
  simp only [Response.legal, h, errorResponse, beq_self_eq_true, Bool.or_true, Bool.and_true]
  rfl

/-- The stops an operation can come to in a block with these parameters: an error with a legal code (10_state.md R23), an
unwritten read, and, only where `IN_CAP` is below 22, a read outside IN. -/
def Stop.Possible (p : Params) : Stop → Prop
  | .raised e => legalStatus e.code = true
  | .unwritten => True
  | .outsideIn a => p.inCap ≤ a ∧ a < 22
  | .outsideOut _ => False

section possible
variable (p : Params)
@[simp] theorem Stop.possible_raised (e : Error) : Stop.Possible p (.raised e) ↔ legalStatus e.code = true := Iff.rfl
@[simp] theorem Stop.possible_unwritten : Stop.Possible p .unwritten := trivial
@[simp] theorem Stop.possible_outsideIn (a : Nat) : Stop.Possible p (.outsideIn a) ↔ p.inCap ≤ a ∧ a < 22 := Iff.rfl
end possible

@[simp] theorem legalStatus_lengthError : legalStatus Error.lengthError.code = true := rfl
@[simp] theorem legalStatus_unsupportedServiceType : legalStatus Error.unsupportedServiceType.code = true := rfl
@[simp] theorem legalStatus_unsupportedDatapointSize : legalStatus Error.unsupportedDatapointSize.code = true := rfl
@[simp] theorem legalStatus_illegalOperation : legalStatus Error.illegalOperation.code = true := rfl

/-! ### What each operation ends in -/

section each
variable (p : Params)

theorem gaPack_ends (main middle sub : Byte) :
    Op.Ends Response.IsSuccess (Stop.Possible p) (gaPack main middle sub) := by
  refine Op.ends_raiseIf_seq rfl <| Op.ends_raiseIf_seq rfl ?_
  exact Op.ends_seq (memWrite1_ends _ (by decide) (by decide) (Memory.outWithin_nil 2)) fun _ ho =>
    Op.ends_seq (memWrite1_ends _ (by decide) (by decide) ho) fun _ ho => packed_isSuccess rfl ho

theorem iaPack_ends (area line device : Byte) :
    Op.Ends Response.IsSuccess (Stop.Possible p) (iaPack area line device) := by
  refine Op.ends_raiseIf_seq rfl <| Op.ends_raiseIf_seq rfl ?_
  exact Op.ends_seq (memWrite2_ends _ (by decide) (by decide) (Memory.outWithin_nil 2)) fun _ ho =>
    packed_isSuccess rfl ho

theorem hdrPack_ends (st tl : Half) : Op.Ends Response.IsSuccess (Stop.Possible p) (hdrPack st tl) :=
  Op.ends_seq (writeHeader_ends st tl le_rfl (by decide) (Memory.outWithin_nil 6)) fun _ ho => packed_isSuccess rfl ho

theorem tailPack_ends (ds apci value : Byte) :
    Op.Ends Response.IsSuccess (Stop.Possible p) (tailPack ds apci value) := by
  refine Op.ends_raiseIf_seq rfl <| Op.ends_raiseIf_seq rfl ?_
  have h (n : Nat) (hn : n ≤ 22) (hlen : (if ds = 1#8 then 3 else 4) = n) := writeTail_ends
    (E := Stop.Possible p) (a := 0) ds apci value (by omega) hn (Memory.outWithin_nil n)
  by_cases hds : ds = 1#8
  · exact Op.ends_seq (h 3 (by decide) (if_pos hds)) fun _ ho => by rw [if_pos hds]; exact packed_isSuccess rfl ho
  · exact Op.ends_seq (h 4 (by decide) (if_neg hds)) fun _ ho => by rw [if_neg hds]; exact packed_isSuccess rfl ho

/-- The length of a frame of a supported size: its tail ends where it ends, inside OUT (42_tunnelling.md R123). -/
theorem frameLength_of_supported {ds : Byte} (h : supportedSize ds = true) :
    legalOutLen ((frameLength ds).setWidth 8) = true
      ∧ ((frameLength ds).setWidth 8).toNat = 18 + (if ds = 1#8 then 3 else 4) := by
  rcases of_decide_eq_true h with rfl | rfl <;> decide

theorem treqPack_ends (ch seq mc main middle sub ds apci value : Byte) :
    Op.Ends Response.IsSuccess (Stop.Possible p) (treqPack ch seq mc main middle sub ds apci value) := by
  refine Op.ends_raiseIf_seq rfl <| Op.ends_raiseIf_seq rfl ?_
  by_cases hds : supportedSize ds = true
  · obtain ⟨hlegal, hlen⟩ := frameLength_of_supported hds
    have hlow : 20 < ((frameLength ds).setWidth 8).toNat := by rw [hlen]; split <;> decide
    have hhigh : ((frameLength ds).setWidth 8).toNat ≤ 22 := by rw [hlen]; split <;> decide
    refine Op.ends_raiseIf_seq rfl <| Op.ends_raiseIf_seq rfl ?_
    refine Op.ends_seq (writeHeader_ends _ _ (by omega) hhigh (Memory.outWithin_nil _)) fun out ho => ?_
    iterate 8 refine Op.ends_seq (memWrite1_ends _ (by omega) hhigh ho) fun out ho => ?_
    refine Op.ends_seq (memWrite2_ends _ (by omega) hhigh ho) fun out ho => ?_
    iterate 2 refine Op.ends_seq (memWrite1_ends _ (by omega) hhigh ho) fun out ho => ?_
    exact Op.ends_seq (writeTail_ends ds apci value hlen.ge hhigh ho) fun out ho => packed_isSuccess hlegal ho
  · simp [hds]

theorem tailUnpack_ends (sb bN bN1 bN2 : Byte) :
    Op.Ends Response.IsSuccess (Stop.Possible p) (tailUnpack p sb bN bN1 bN2) :=
  Op.ends_raiseIf_seq rfl (unpacked_isSuccess _)

/-- Every read of HDR_UNPACK is at an address below 22, and every error has a legal code. -/
theorem hdrUnpack_ends (m : Memory) (n : Half) :
    Op.Ends Response.IsSuccess (Stop.Possible p) (hdrUnpack p m n) := by
  simp [hdrUnpack]

/-- Every read of TREQ_UNPACK is at an address below 22, and every error has a legal code. -/
theorem treqUnpack_ends (m : Memory) (n : Half) :
    Op.Ends Response.IsSuccess (Stop.Possible p) (treqUnpack p m n) := by
  simp [treqUnpack]

/-- Every operation ends in a success response or in a possible stop (20_memory.md R54, R56, 10_state.md R32). -/
theorem opOf_ends (i : Instr) (m : Memory) : Op.Ends Response.IsSuccess (Stop.Possible p) (opOf i p m) := by
  cases i with
  | gaPack main middle sub => exact gaPack_ends p main middle sub
  | gaUnpack byte0 byte1 => exact unpacked_isSuccess _
  | iaPack area line device => exact iaPack_ends p area line device
  | iaUnpack byte0 byte1 => exact unpacked_isSuccess _
  | hdrPack st tl => exact hdrPack_ends p st tl
  | hdrUnpack n => exact hdrUnpack_ends p m n
  | tailPack ds apci value => exact tailPack_ends p ds apci value
  | tailUnpack sb bN bN1 bN2 => exact tailUnpack_ends p sb bN bN1 bN2
  | treqPack ch seq mc main middle sub ds apci value => exact treqPack_ends p ch seq mc main middle sub ds apci value
  | treqUnpack n => exact treqUnpack_ends p m n

end each

end Sys2Proof.Machine
end

section
/-! SUPPORT. What a completion and a step can do. -/

namespace Sys2Proof.Machine

/-! ### The completion -/

/-- The operation a command word selects; a reserved opcode's raises IllegalOperation (30_encoding.md R71). -/
def cmdOp (w : CmdWord) (p : Params) (inBuf : Memory) : Op Response :=
  match decode w with
  | .ok i => opOf i p inBuf
  | .error _ => .error (.raised .illegalOperation)

theorem unitStep_eq_complete (s : State) : unitStep s = complete (cmdOp s.cmd s.params s.inBuf) s := by
  unfold unitStep cmdOp
  cases decode s.cmd with
  | ok i => exact exec_eq_complete i s
  | error e => rfl

theorem cmdOp_ends (w : CmdWord) (p : Params) (m : Memory) :
    Op.Ends Response.IsSuccess (Stop.Possible p) (cmdOp w p m) := by
  unfold cmdOp
  cases decode w with
  | ok i => exact opOf_ends p i m
  | error e => exact legalStatus_illegalOperation

/-- An unwritten read adds to the count of free values. -/
theorem takeUnwritten_not_defined (s : State) : ¬ Claims.Defined s s.takeUnwritten := by
  simp [Claims.Defined, undefinedDraws]

/-- A completion that used no free value is a success or an error, and answers alike from every state. -/
theorem complete_defined {o : Op Response} {s t : State} (h : complete o s = .next t) (hd : Claims.Defined s t) :
    (o = .ok t.resp ∨ ∃ e, o = .error (.raised e) ∧ t.resp = errorResponse e)
      ∧ ∀ s' : State, complete o s' = .next (s'.respond t.resp) := by
  rcases complete_cases o s with ⟨r, rfl, hr⟩ | ⟨e, rfl, hr⟩ | ⟨-, hr⟩ | ⟨a, -, hr⟩ | ⟨a, -, hr⟩ <;> rw [hr] at h <;>
    cases h
  · exact ⟨.inl rfl, fun _ => rfl⟩
  · exact ⟨.inr ⟨e, rfl, rfl⟩, fun _ => rfl⟩
  · exact (takeUnwritten_not_defined s hd).elim

/-- A response an operation with these ends can give: a legal one, with a canonical OUT. -/
structure Response.WellFormed (r : Response) : Prop where
  legal : r.legal = true
  out : Memory.wf outBlank Config.outCap r.out = true

/-- What a completion answers where the operation's ends are known. -/
theorem complete_next_of_ends {o : Op Response} {p : Params} {s t : State}
    (ho : Op.Ends Response.IsSuccess (Stop.Possible p) o) (h : complete o s = .next t) :
    (∃ r : Response, r.WellFormed ∧ t = s.respond r) ∨ t = s.takeUnwritten := by
  rcases complete_cases o s with ⟨r, rfl, hr⟩ | ⟨e, rfl, hr⟩ | ⟨-, hr⟩ | ⟨a, -, hr⟩ | ⟨a, -, hr⟩ <;> rw [hr] at h <;>
    cases h
  · exact .inl ⟨r, ⟨ho.legal, ho.out⟩, rfl⟩
  · exact .inl ⟨_, ⟨errorResponse_legal ho, rfl⟩, rfl⟩
  · exact .inr rfl

theorem Params.inCap_of_wellFormed {p : Params} (h : p.wellFormed = true) : 22 ≤ p.inCap := by
  simp only [Params.wellFormed, Bool.and_eq_true, decide_eq_true_eq] at h
  exact h.1.1.1

/-- With 22 bytes of IN an operation completes. -/
theorem complete_of_ends {o : Op Response} {p : Params} (s : State) (hp : 22 ≤ p.inCap)
    (ho : Op.Ends Response.IsSuccess (Stop.Possible p) o) :
    (∃ r, complete o s = .next (s.respond r)) ∨ complete o s = .next s.takeUnwritten := by
  rcases complete_cases o s with ⟨r, -, hr⟩ | ⟨e, -, hr⟩ | ⟨-, hr⟩ | ⟨a, rfl, -⟩ | ⟨a, rfl, -⟩
  · exact .inl ⟨r, hr⟩
  · exact .inl ⟨_, hr⟩
  · exact .inr hr
  · exact absurd (hp.trans ho.1) (Nat.not_le.2 ho.2)
  · exact ho.elim

/-! ### The step -/

section turns
variable {s : State}

theorem step_of_no_turn (h : s.agenda = []) : step s = unitTurn s := by simp [step, takeTurn, h]

theorem step_of_unit_turn {rest : List Turn} (h : s.agenda = .unit :: rest) :
    step s = unitTurn { s with agenda := rest } := by simp [step, takeTurn, h]

theorem step_of_host_turn {a : HostAction} {rest : List Turn} (h : s.agenda = .host a :: rest) :
    step s = hostStep a { s with agenda := rest } := by simp [step, takeTurn, h]

theorem unitTurn_of_busy (h : s.busy = true) : unitTurn s = unitStep s := by simp [unitTurn, h]

theorem unitTurn_of_idle (h : s.busy = false) : unitTurn s = .next s := by simp [unitTurn, h]

theorem unitStep_of_decode {i : Instr} (h : decode s.cmd = .ok i) : unitStep s = exec i s := by simp [unitStep, h]

end turns

/-- The state with its next turn, if there is one, used up. -/
@[simp] def State.turnUsed (s : State) : State := { s with agenda := s.agenda.tail }

/-- Everything a step that answers a next state can do: the unit's turn with nothing pending, the two completions, and
the host's interactions (10_state.md R31, R40). -/
inductive Moves (s : State) : State → Prop
  | idle (hbusy : s.busy = false) : Moves s s.turnUsed
  | responds (r : Response) (hbusy : s.busy = true) (hr : r.WellFormed) : Moves s (s.turnUsed.respond r)
  | readsUnwritten (hbusy : s.busy = true) : Moves s s.turnUsed.takeUnwritten
  | writesIn (a : Nat) (b : Byte) (hturn : s.agenda.head? = some (.host (.writeIn a b))) (ha : a < s.params.inCap)
      (hbusy : s.busy = false) : Moves s { s.turnUsed with inBuf := Memory.set inBlank s.inBuf a b }
  | writesInWhileBusy (a : Nat) (b : Byte) (hturn : s.agenda.head? = some (.host (.writeIn a b)))
      (ha : a < s.params.inCap) (hbusy : s.busy = true) :
      Moves s { s.turnUsed with
        inBuf := Memory.set inBlank s.inBuf a (Config.freeByte s.draws)
        faults := { s.faults with hostInWriteWhileBusy := true }
        draws := s.draws + 1 }
  | issues (w : CmdWord) (hturn : s.agenda.head? = some (.host (.issue w))) (hbusy : s.busy = false) :
      Moves s { s.turnUsed with cmd := w, busy := true, respValid := false }
  | resets (hturn : s.agenda.head? = some (.host .reset)) :
      Moves s { State.reset with
        params := s.params, faults := s.faults, agenda := s.agenda.tail, replies := s.replies, draws := s.draws }
  | replies (r : HostReply) : Moves s { s.turnUsed with replies := r :: s.replies }

theorem unitTurn_moves {s t : State} (h : unitTurn s.turnUsed = .next t) : Moves s t := by
  cases hbusy : s.busy with
  | false =>
    rw [unitTurn_of_idle (s := s.turnUsed) hbusy] at h
    cases h
    exact .idle hbusy
  | true =>
    rw [unitTurn_of_busy (s := s.turnUsed) hbusy, unitStep_eq_complete] at h
    rcases complete_next_of_ends (cmdOp_ends ..) h with ⟨r, hr, rfl⟩ | rfl
    · exact .responds r hbusy hr
    · exact .readsUnwritten hbusy

theorem hostStep_moves {s t : State} {a : HostAction} (hturn : s.agenda.head? = some (.host a))
    (h : hostStep a s.turnUsed = .next t) : Moves s t := by
  rcases hostStep_next h with ⟨k, b, rfl, hk, hbusy, rfl⟩ | ⟨k, b, rfl, hk, hbusy, rfl⟩ | ⟨w, rfl, hbusy, rfl⟩ |
    ⟨rfl, rfl⟩ | ⟨r, rfl, -⟩
  · exact .writesIn k b hturn hk hbusy
  · exact .writesInWhileBusy k b hturn hk hbusy
  · exact .issues w hturn hbusy
  · exact .resets hturn
  · exact .replies r

theorem step_moves {s t : State} (h : step s = .next t) : Moves s t := by
  rcases takeTurn_cases s with ⟨ha, hs⟩ | ⟨rest, ha, hs⟩ | ⟨a, rest, ha, hs⟩ <;> rw [step, hs] at h
  · exact unitTurn_moves (by rwa [State.turnUsed, ha, List.tail_nil, ← ha])
  · exact unitTurn_moves (by rwa [State.turnUsed, ha])
  · exact hostStep_moves (a := a) (by rw [ha]; rfl) (by rwa [State.turnUsed, ha])

/-! ### The invariant -/

theorem State.inv_iff (s : State) : s.inv = true ↔
    s.params.wellFormed = true ∧ Memory.wf inBlank s.params.inCap s.inBuf = true
      ∧ Memory.wf outBlank Config.outCap s.resp.out = true ∧ (s.busy && s.respValid) = false
      ∧ (s.faults.unwrittenInRead || s.resp.legal) = true := by
  simp only [State.inv, Bool.and_eq_true, Bool.not_eq_true', and_assoc]

/-- Every move keeps the invariant. -/
theorem Moves.inv {s t : State} (h : Moves s t) (hs : s.inv = true) : t.inv = true := by
  rw [State.inv_iff] at hs ⊢
  obtain ⟨hparams, hin, hout, hflags, hlegal⟩ := hs
  cases h with
  | idle => exact ⟨hparams, hin, hout, hflags, hlegal⟩
  | responds r _ hr => exact ⟨hparams, hin, hr.out, rfl, by simp [hr.legal]⟩
  | readsUnwritten => exact ⟨hparams, hin, freeOut_wf _ _ le_rfl, rfl, rfl⟩
  | writesIn a b _ ha => exact ⟨hparams, Memory.wf_set _ _ _ a _ ha hin, hout, hflags, hlegal⟩
  | writesInWhileBusy a b _ ha => exact ⟨hparams, Memory.wf_set _ _ _ a _ ha hin, hout, hflags, hlegal⟩
  | issues => exact ⟨hparams, hin, hout, rfl, hlegal⟩
  | resets => exact ⟨hparams, rfl, rfl, rfl, Bool.or_eq_true_iff.2 (.inr rfl)⟩
  | replies => exact ⟨hparams, hin, hout, hflags, hlegal⟩

end Sys2Proof.Machine
end

section
/-! SUPPORT. What the completion and the reads of IN depend on, unwritten reads, and a family of blocks. -/

namespace Sys2Proof.Machine

/-! ### What an operation depends on -/

/-- An operation sees no more of IN than what each address reads as. -/
theorem opOf_congr {m m' : Memory} (h : ∀ a, Memory.get inBlank m' a = Memory.get inBlank m a) (i : Instr) (p : Params) :
    opOf i p m' = opOf i p m := by
  have hread : memRead1 p m' = memRead1 p m := by funext a; simp only [memRead1, h]
  cases i with
  | hdrUnpack n => simp only [opOf, hdrUnpack, memRead2, hread]
  | treqUnpack n => simp only [opOf, treqUnpack, memRead2, hread]
  | _ => rfl

theorem cmdOp_congr {m m' : Memory} (h : ∀ a, Memory.get inBlank m' a = Memory.get inBlank m a) (w : CmdWord)
    (p : Params) : cmdOp w p m' = cmdOp w p m := by
  simp only [cmdOp, opOf_congr h]

theorem decode_of_decodeTableWord {nbits w : Nat} {i : Instr} (h : decodeTableWord nbits w = some i) :
    decode (BitVec.ofNat 80 (w % 2 ^ nbits)) = .ok i := by
  unfold decodeTableWord at h
  split at h
  · cases h; assumption
  · cases h

/-! ### Unwritten reads -/

theorem recordsUnwrittenRead_of_opOf {i : Instr} {s : State} (h : opOf i s.params s.inBuf = .error .unwritten) :
    Claims.RecordsUnwrittenRead i s :=
  ⟨s.takeUnwritten, by rw [exec_eq_complete, h, complete_unwritten], rfl, rfl, rfl, rfl, rfl, rfl, rfl, rfl⟩

theorem Params.tag_mem_of_wellFormed {p : Params} (h : p.wellFormed = true) : 0x0420#16 ∈ p.knownTags := by
  simp only [Params.wellFormed, Config.tunnellingRequestTag, Bool.and_eq_true, List.contains_iff_mem] at h
  exact h.1.1.2

/-- A read below 22, inside IN in an admitted block. -/
theorem ends_memRead1_below {p : Params} (h : p.wellFormed = true) {m : Memory} {a : Nat} (ha : a < 22) {E : Stop → Prop}
    {Q : Byte → Prop} : Op.Ends Q E (memRead1 p m a) ↔
      (Memory.get inBlank m a = none → E .unwritten) ∧ ∀ b, Memory.get inBlank m a = some b → Q b := by
  have ha : a < p.inCap := ha.trans_le (Params.inCap_of_wellFormed h)
  simp [ends_memRead1, ha, Nat.not_le.2 ha]

section unwritten
variable {p : Params} {m : Memory} {n : Half}

/-- HDR_UNPACK reads bytes 0 to 5 before it checks anything but the length (41_header.md R103). -/
theorem hdrUnpack_unwritten (hp : p.wellFormed = true) (hn : 6#16 ≤ n) {a : Nat} (ha : a < 6)
    (hnone : Memory.get inBlank m a = none) : hdrUnpack p m n = .error .unwritten := by
  refine Op.eq_error_of_ends ?_
  interval_cases a <;> simp [hdrUnpack, ends_memRead1_below hp, hn, hnone]

/-- TREQ_UNPACK reads the tag at 2 after the length check alone (42_tunnelling.md R131). -/
theorem treqUnpack_unwritten_tag (hp : p.wellFormed = true) (hn : 6#16 ≤ n)
    (hnone : Memory.get inBlank m 2 = none ∨ Memory.get inBlank m 3 = none) :
    treqUnpack p m n = .error .unwritten := by
  refine Op.eq_error_of_ends ?_
  rcases hnone with hnone | hnone <;> simp [treqUnpack, ends_memRead1_below hp, hn, hnone]

section tagged
variable (hp : p.wellFormed = true) (hn : 6#16 ≤ n) (h2 : Memory.get inBlank m 2 = some 0x04#8)
  (h3 : Memory.get inBlank m 3 = some 0x20#8)
include hp hn h2 h3

/-- With the tag 0x0420 it reads the length at 4. -/
theorem treqUnpack_unwritten_length (hnone : Memory.get inBlank m 4 = none ∨ Memory.get inBlank m 5 = none) :
    treqUnpack p m n = .error .unwritten := by
  have htag := Params.tag_mem_of_wellFormed hp
  refine Op.eq_error_of_ends ?_
  rcases hnone with hnone | hnone <;>
    simp [treqUnpack, Config.tunnellingRequestTag, ends_memRead1_below hp, hn, h2, h3, htag, hnone]

section declared
variable {tl1 tl0 : Byte} (h4 : Memory.get inBlank m 4 = some tl1) (h5 : Memory.get inBlank m 5 = some tl0)
  (htl : (tl1 ++ tl0 : Half) = n) (hlong : 19#16 ≤ n)
include h4 h5 htl hlong

/-- With the length declared it reads the size byte at 18. -/
theorem treqUnpack_unwritten_size (hnone : Memory.get inBlank m 18 = none) : treqUnpack p m n = .error .unwritten := by
  have htag := Params.tag_mem_of_wellFormed hp
  refine Op.eq_error_of_ends ?_
  simp [treqUnpack, Config.tunnellingRequestTag, ends_memRead1_below hp, hn, h2, h3, htag, h4, h5, htl,
    hlong, hnone]

variable {sb : Byte} (h18 : Memory.get inBlank m 18 = some sb) (hsize : supportedSize (dataSizeOf p sb) = true)
  (hlen : n = frameLength (dataSizeOf p sb))
include h18 hsize hlen

/-- With every check passed it reads the fields. -/
theorem treqUnpack_unwritten_field {a : Nat} (ha : a ∈ [7, 8, 10, 16, 17, 19, 20])
    (hnone : Memory.get inBlank m a = none) : treqUnpack p m n = .error .unwritten := by
  have htag := Params.tag_mem_of_wellFormed hp
  refine Op.eq_error_of_ends ?_
  fin_cases ha <;>
    simp [treqUnpack, Config.tunnellingRequestTag, ends_memRead1_below hp, hn, h2, h3, htag, h4, h5, htl,
      hlong, h18, hsize, ← hlen, hnone]

/-- For data size 2 it reads byte 21 too. -/
theorem treqUnpack_unwritten_value (htwo : dataSizeOf p sb = 2#8) (hnone : Memory.get inBlank m 21 = none) :
    treqUnpack p m n = .error .unwritten := by
  have htag := Params.tag_mem_of_wellFormed hp
  rw [htwo] at hsize hlen
  refine Op.eq_error_of_ends ?_
  simp [treqUnpack, Config.tunnellingRequestTag, ends_memRead1_below hp, hn, h2, h3, htag, h4, h5, htl,
    hlong, h18, hsize, ← hlen, htwo, hnone]

end declared
end tagged
end unwritten

/-! ### Several blocks -/

/-- What a family of blocks does when block `k` steps. -/
theorem stepInstance_eq_some (blocks after : List State) (k : Nat) :
    stepInstance blocks k = some after ↔
      ∃ s t, blocks[k]? = some s ∧ step s = .next t ∧ after = blocks.set k t := by
  induction blocks generalizing k after with
  | nil => simp [stepInstance]
  | cons s rest ih =>
    cases k with
    | zero => cases h : step s <;> simp [stepInstance, h, eq_comm]
    | succ k =>
      simp only [stepInstance, Option.map_eq_some_iff, ih, List.getElem?_cons_succ, List.set_cons_succ]
      constructor
      · rintro ⟨_, ⟨t, t', hs, ht, rfl⟩, rfl⟩
        exact ⟨t, t', hs, ht, rfl⟩
      · rintro ⟨t, t', hs, ht, rfl⟩
        exact ⟨_, ⟨t, t', hs, ht, rfl⟩, rfl⟩

end Sys2Proof.Machine
end

section
/-! SUPPORT. The statements of the state and the transaction (10_state.md), settled. -/

namespace Sys2Proof.Proofs

open Sys2Proof.Machine Sys2Proof.Claims

/-- Settles O44: a step is one of the moves, and every move keeps the invariant. -/
theorem everyStepKeepsTheInvariant : Obligations.EveryStepKeepsTheInvariant := fun _ _ hs h => (step_moves h).inv hs

/-- Settles O25: an operation's reads lie below 22 and its writes inside OUT, so that with the 22 bytes of IN of an
admitted block it ends in a response, an error or an unwritten read. -/
theorem everyOperationCompletes : Obligations.EveryOperationCompletes := by
  intro i s hs
  rw [exec_eq_complete]
  rcases complete_of_ends s (Params.inCap_of_wellFormed hs) (opOf_ends s.params i s.inBuf) with ⟨r, h⟩ | h
  · exact ⟨_, h, rfl, rfl, rfl, rfl, rfl, rfl, rfl, rfl, .inl ⟨rfl, rfl⟩⟩
  · exact ⟨_, h, rfl, rfl, rfl, rfl, rfl, rfl, rfl, rfl, .inr rfl⟩

/-- Settles O28: a defined completion with another STATUS than 0x00 is no success, so it has taken an error. -/
theorem errorLeavesNoPartialResult : Obligations.ErrorLeavesNoPartialResult := by
  intro i s t h hd hstatus
  rw [exec_eq_complete] at h
  have hends := opOf_ends s.params i s.inBuf
  obtain ⟨hok | ⟨e, -, hresp⟩, hall⟩ := complete_defined h hd
  · rw [hok] at hends
    exact absurd hends.status hstatus
  · have ht : t = s.respond (errorResponse e) := by simpa [h, hresp] using hall s
    subst ht
    exact ⟨⟨rfl, rfl, errorResponse_outByte e, rfl⟩, rfl, rfl, rfl, rfl, fun _ => rfl, rfl, rfl, rfl, rfl, rfl⟩

/-- Settles O29: each clause's unwritten byte stands where the checks before it pass. -/
theorem unwrittenReadIsRecorded : Obligations.UnwrittenReadIsRecorded := by
  intro n s hp hn
  refine ⟨fun ⟨a, ha, hnone⟩ => recordsUnwrittenRead_of_opOf (hdrUnpack_unwritten hp hn ha hnone),
    fun hnone => recordsUnwrittenRead_of_opOf (treqUnpack_unwritten_tag hp hn hnone), fun h2 h3 =>
    ⟨fun hnone => recordsUnwrittenRead_of_opOf (treqUnpack_unwritten_length hp hn h2 h3 hnone),
      fun tl1 tl0 h4 h5 htl hlong => ⟨fun hnone => recordsUnwrittenRead_of_opOf
        (treqUnpack_unwritten_size hp hn h2 h3 h4 h5 htl hlong hnone), ?_⟩⟩⟩
  rintro sb _ h18 rfl hsize hlen (⟨a, ha, hnone⟩ | ⟨htwo, hnone⟩)
  · exact recordsUnwrittenRead_of_opOf
      (treqUnpack_unwritten_field hp hn h2 h3 h4 h5 htl hlong h18 (decide_eq_true hsize) hlen ha hnone)
  · exact recordsUnwrittenRead_of_opOf
      (treqUnpack_unwritten_value hp hn h2 h3 h4 h5 htl hlong h18 (decide_eq_true hsize) hlen htwo hnone)

/-- Settles O31: the completion is that of one operation on CMD, the parameters and what IN reads as. -/
theorem noCarriedState : Obligations.NoCarriedState := by
  intro s s' t hparams hcmd hin h hd
  rw [unitStep_eq_complete] at h ⊢
  have hop : cmdOp s'.cmd s'.params s'.inBuf = cmdOp s.cmd s.params s.inBuf := by
    rw [hcmd, hparams, cmdOp_congr hin]
  exact ⟨s'.respond t.resp, hop ▸ (complete_defined h hd).2 s', rfl, rfl⟩

/-- Settles O38: the byte written reads as the value, a byte elsewhere as before (the law of memories). -/
theorem hostWritesIn : Obligations.HostWritesIn := by
  intro s a b rest hturn ha
  have hother (v : Byte) (c : Nat) (hc : c ≠ a) :
      Memory.get inBlank (Memory.set inBlank s.inBuf a v) c = Memory.get inBlank s.inBuf c := by
    rw [Memory.get_set, if_neg hc]
  rw [step_of_host_turn hturn]
  cases hbusy : s.busy with
  | false =>
    refine ⟨{ s with agenda := rest, inBuf := Memory.set inBlank s.inBuf a b }, ?_, hother b, rfl, rfl, hbusy, rfl, rfl,
      rfl, rfl, fun _ => ⟨?_, rfl⟩, nofun⟩
    · simp [hostStep, hostWriteIn, Nat.not_le.2 ha, hbusy]
    · simp [State.inByte, Memory.get_set]
  | true =>
    refine ⟨{ s with
      agenda := rest
      inBuf := Memory.set inBlank s.inBuf a (Config.freeByte s.draws)
      faults := { s.faults with hostInWriteWhileBusy := true }
      draws := s.draws + 1 }, ?_, hother _, rfl, rfl, hbusy, rfl, rfl, rfl, rfl, nofun, fun _ => rfl⟩
    simp [hostStep, hostWriteIn, Nat.not_le.2 ha, hbusy]

/-- Settles O45: each move keeps the names in FAULT or adds one. -/
theorem noStepRemovesAFault : Obligations.NoStepRemovesAFault := by
  intro s t h
  cases step_moves h with
  | readsUnwritten => exact ⟨fun _ => rfl, id⟩
  | writesInWhileBusy => exact ⟨id, fun _ => rfl⟩
  | idle | responds | writesIn | issues | resets | replies => exact ⟨id, id⟩

/-- Settles O46: no move writes the parameters, a reset included. -/
theorem parametersNeverChange : Obligations.ParametersNeverChange := by
  intro s t h
  cases step_moves h <;> rfl

/-- Settles O47: move by move, the one field each writes. -/
theorem eachFieldHasOneWriter : Obligations.EachFieldHasOneWriter := by
  intro s t h
  cases step_moves h with
  | responds r hbusy => exact ⟨.inl rfl, .inl rfl, .inr (.inl ⟨hbusy, rfl, rfl⟩)⟩
  | readsUnwritten hbusy => exact ⟨.inl rfl, .inl rfl, .inr (.inl ⟨hbusy, rfl, rfl⟩)⟩
  | writesIn a b hturn => exact ⟨.inl rfl, .inr (.inl ⟨a, b, hturn⟩), .inl rfl⟩
  | writesInWhileBusy a b hturn => exact ⟨.inl rfl, .inr (.inl ⟨a, b, hturn⟩), .inl rfl⟩
  | issues w hturn => exact ⟨.inr (.inl hturn), .inl rfl, .inl rfl⟩
  | resets hturn => exact ⟨.inr (.inr hturn), .inr (.inr hturn), .inr (.inr hturn)⟩
  | idle | replies => exact ⟨.inl rfl, .inl rfl, .inl rfl⟩

/-- Settles O48: a completion, an issue and a reset are the only moves that change a flag. -/
theorem flagsFollowTheTransaction : Obligations.FlagsFollowTheTransaction := by
  intro s t h
  cases step_moves h with
  | responds r hbusy => exact ⟨nofun, fun _ _ => .inl rfl, fun _ _ => ⟨hbusy, rfl⟩, nofun⟩
  | readsUnwritten hbusy => exact ⟨nofun, fun _ _ => .inl rfl, fun _ _ => ⟨hbusy, rfl⟩, nofun⟩
  | issues w hturn => exact ⟨fun _ _ => ⟨⟨w, hturn⟩, rfl⟩, nofun, nofun, fun _ _ => .inl ⟨w, hturn⟩⟩
  | resets hturn => exact ⟨nofun, fun _ _ => .inr hturn, nofun, fun _ _ => .inr hturn⟩
  | idle | writesIn | writesInWhileBusy | replies => simp +contextual

/-- Settles O50: a family moves by one `List.set`. -/
theorem instancesShareNothing : Obligations.InstancesShareNothing := by
  refine ⟨fun blocks after k h => ?_, fun blocks k s t hs ht => ?_⟩
  · obtain ⟨s, t, hs, ht, rfl⟩ := (stepInstance_eq_some ..).1 h
    obtain ⟨hk, -⟩ := List.getElem?_eq_some_iff.1 hs
    exact ⟨⟨s, t, hs, ht, List.getElem?_set_self hk⟩, List.length_set, fun j hj => List.getElem?_set_ne hj.symm⟩
  · exact ⟨_, (stepInstance_eq_some ..).2 ⟨s, t, hs, ht, rfl⟩⟩

/-- Settles O34: the unit's turn while BUSY = 1 completes the latched command. -/
theorem stepRunsTheDecodedInstruction : Obligations.StepRunsTheDecodedInstruction := by
  intro s i hbusy hdecode
  have hrun (s : State) (hb : s.busy = true) (hd : decode s.cmd = .ok i) : unitTurn s = exec i s :=
    (unitTurn_of_busy hb).trans (unitStep_of_decode hd)
  refine ⟨fun h => (step_of_no_turn h).trans (hrun s hbusy hdecode),
    fun rest h => (step_of_unit_turn h).trans (hrun _ hbusy hdecode), fun r nbits w hw => ?_⟩
  exact (step_of_unit_turn rfl).trans (hrun _ rfl (decode_of_decodeTableWord hw))

/-- Settles O35: the host's turn is its issue. -/
theorem issueLatchesTheCommand : Obligations.IssueLatchesTheCommand := by
  intro s cmd rest hturn
  rw [step_of_host_turn hturn]
  refine ⟨fun hbusy => ⟨{ s with agenda := rest, cmd := cmd, busy := true, respValid := false }, ?_, rfl, rfl, rfl, rfl,
    rfl, rfl, rfl, rfl, rfl, rfl⟩, fun hbusy => ?_⟩ <;> simp [hostStep, hostIssue, hbusy]

/-- Settles O36: the host's turn is its read. -/
theorem hostReadsOnlyAValidResponse : Obligations.HostReadsOnlyAValidResponse := by
  intro s rest hturn
  rw [step_of_host_turn hturn]
  constructor <;> intro hvalid <;> simp [hostStep, hostReadResponse, hvalid]

/-- Settles O37: the host's turn is its wait. -/
theorem hostWaitSeesTheFlags : Obligations.HostWaitSeesTheFlags := fun _ _ hturn => step_of_host_turn hturn

/-- Settles O40, field by field. -/
theorem resetStateIsAsStated : Obligations.ResetStateIsAsStated :=
  ⟨rfl, rfl, rfl, rfl, rfl, fun _ => rfl, rfl, fun _ => rfl, rfl, fun _ => ⟨_, rfl, rfl⟩⟩

/-- Settles O43, by evaluation. -/
theorem resetMeetsTheInvariant : Obligations.ResetMeetsTheInvariant := rfl

end Sys2Proof.Proofs
end

section
/-! SUPPORT. A command word and its ten bytes, the reads of IN below a declared length, and two-byte accesses. -/

namespace Sys2Proof

/-! ### The word and its bytes -/

/-- The byte view gives back the bytes a word is made of (20_memory.md R51). -/
@[simp] theorem bytesOfWord_wordOfBytes (op f0 f1 f2 f3 f4 f5 f6 f7 f8 : Byte) :
    bytesOfWord (wordOfBytes op f0 f1 f2 f3 f4 f5 f6 f7 f8) = [op, f0, f1, f2, f3, f4, f5, f6, f7, f8] := by
  simp [bytesOfWord, List.range_succ]

/-- The decoder looks for each operand where the encoder writes it, operation by operation (30_encoding.md R66, R67). -/
theorem decode_encode (i : Instr) : decode (encode i) = .ok i := by
  cases i <;> simp [decode, Instr.opcode, encode, Instr.fields, halfFieldOf]

/-- The high byte of a half word, as a shift. -/
theorem shiftRight_setWidth_eq_hiByte (v : Half) : (v >>> 8).setWidth 8 = hiByte v := by
  ext k hk
  simp [hiByte]

theorem setWidth_eq_loByte (v : Half) : v.setWidth 8 = loByte v := by
  ext k hk
  simp [loByte]

namespace Machine

/-! ### Operations that depend on a part of IN -/

/-- What follows a check need agree only where the check raises nothing. -/
theorem raiseIf_bind_congr {α : Type} {c : Bool} {e : Error} {f g : Unit → Op α} (h : c = false → f () = g ()) :
    (raiseIf c e >>= f) = (raiseIf c e >>= g) := by
  cases c with
  | true => rfl
  | false => exact h rfl

section reads
variable (p : Params) {m m' : Memory} {n : Half} {a : Nat}

theorem memRead1_congr (h : Memory.get inBlank m' a = Memory.get inBlank m a) : memRead1 p m' a = memRead1 p m a := by
  simp only [memRead1, h]

theorem memRead2_congr (h : Memory.get inBlank m' a = Memory.get inBlank m a)
    (h' : Memory.get inBlank m' (a + 1) = Memory.get inBlank m (a + 1)) : memRead2 p m' a = memRead2 p m a := by
  simp only [memRead2, memRead1_congr p h, memRead1_congr p h']

/-- HDR_UNPACK reads nothing under a length below 6, and else bytes 0 to 5 (41_header.md R103). -/
theorem hdrUnpack_congr_below (h : ∀ a, a < n.toNat → a < 6 → Memory.get inBlank m' a = Memory.get inBlank m a) :
    hdrUnpack p m' n = hdrUnpack p m n := by
  refine raiseIf_bind_congr fun hlen => ?_
  have hlen : 6 ≤ n.toNat := by simpa [BitVec.lt_def] using hlen
  have hget (a : Nat) (ha : a < 6) := h a (ha.trans_le hlen) ha
  rw [memRead1_congr p (hget 0 (by decide)), memRead1_congr p (hget 1 (by decide)),
    memRead2_congr p (hget 2 (by decide)) (hget 3 (by decide)),
    memRead2_congr p (hget 4 (by decide)) (hget 5 (by decide))]

/-- TREQ_UNPACK reads bytes 2 to 5 under a length of 6 or more, byte 18 under one of 19 or more, and the fields, byte 21
only for data size 2, under the length of the whole frame (42_tunnelling.md R131). -/
theorem treqUnpack_congr_below (h : ∀ a, a < n.toNat → a < 22 → Memory.get inBlank m' a = Memory.get inBlank m a) :
    treqUnpack p m' n = treqUnpack p m n := by
  refine raiseIf_bind_congr fun hlen => ?_
  have hlen : 6 ≤ n.toNat := by simpa [BitVec.lt_def] using hlen
  have hhead (a : Nat) (ha : a < 6) := h a (by omega) (by omega)
  rw [memRead2_congr p (hhead 2 (by decide)) (hhead 3 (by decide)),
    memRead2_congr p (hhead 4 (by decide)) (hhead 5 (by decide))]
  refine bind_congr fun st => raiseIf_bind_congr fun _ => raiseIf_bind_congr fun _ => ?_
  refine bind_congr fun tl => raiseIf_bind_congr fun _ => raiseIf_bind_congr fun hlong => ?_
  have hlong : 19 ≤ n.toNat := by simpa [BitVec.lt_def] using hlong
  rw [memRead1_congr p (h 18 (by omega) (by decide))]
  refine bind_congr fun sizeByte => raiseIf_bind_congr fun hsize => raiseIf_bind_congr fun hframe => ?_
  have hframe : n = frameLength (dataSizeOf p sizeByte) := by simpa using hframe
  have hsize : dataSizeOf p sizeByte = 1#8 ∨ dataSizeOf p sizeByte = 2#8 := by
    simpa only [supportedSize, Bool.not_eq_false', decide_eq_true_eq] using hsize
  have hn : n.toNat = if dataSizeOf p sizeByte = 1#8 then 21 else 22 := by
    rcases hsize with hds | hds <;> rw [hframe, hds] <;> rfl
  have hfield (a : Nat) (ha : a < 21) := h a (by split at hn <;> omega) (by omega)
  rw [memRead1_congr p (hfield 7 (by decide)), memRead1_congr p (hfield 8 (by decide)),
    memRead1_congr p (hfield 10 (by decide)), memRead2_congr p (hfield 16 (by decide)) (hfield 17 (by decide)),
    memRead1_congr p (hfield 19 (by decide)), memRead1_congr p (hfield 20 (by decide))]
  by_cases hds : dataSizeOf p sizeByte = 1#8
  · simp only [hds, if_true]
  · rw [memRead1_congr p (h 21 (by rw [hn, if_neg hds]; decide) (by decide))]

end reads

/-- Where the operation is the same, a defined completion is the same from another state. -/
theorem exec_defined_congr {i : Instr} {s s' t : State} (hop : opOf i s'.params s'.inBuf = opOf i s.params s.inBuf)
    (h : exec i s = .next t) (hd : Claims.Defined s t) :
    ∃ t', exec i s' = .next t' ∧ Claims.Defined s' t' ∧ t'.resp = t.resp := by
  rw [exec_eq_complete] at h ⊢
  exact ⟨s'.respond t.resp, hop ▸ (complete_defined h hd).2 s', rfl, rfl⟩

end Machine
end Sys2Proof
end

section
/-! SUPPORT. The statements of the memory (20_memory.md), settled. -/

namespace Sys2Proof.Proofs

open Sys2Proof.Machine Sys2Proof.Claims

/-- Settles O6: the ten bytes of an encoding make the same word, which decodes to the instruction. -/
theorem byteViewOfTheCommandWord : Obligations.ByteViewOfTheCommandWord := by
  refine ⟨fun _ => rfl, fun i rest => ?_⟩
  have hdecode := decode_encode i
  unfold encode at hdecode ⊢
  rw [bytesOfWord_wordOfBytes]
  simp only [List.cons_append, List.nil_append, decodeBytes, hdecode]

/-- Settles O30: each of the two operations is the same on inputs that agree below the declared length. -/
theorem noByteIsReadPastTheDeclaredLength : Obligations.NoByteIsReadPastTheDeclaredLength := by
  intro n s s' t hparams hd
  refine ⟨fun hin h => exec_defined_congr (i := .hdrUnpack n) ?_ h hd,
    fun hin h => exec_defined_congr (i := .treqUnpack n) ?_ h hd⟩
  · rw [hparams]
    exact hdrUnpack_congr_below s.params hin
  · rw [hparams]
    exact treqUnpack_congr_below s.params hin

/-- Settles O49: of the moves that leave BUSY set from a busy state, a write is recorded and a reply touches neither. -/
theorem inputStaysAsAtIssue : Obligations.InputStaysAsAtIssue := by
  intro s t hbusy h hbusy' hfault
  cases step_moves h with
  | replies => exact ⟨rfl, rfl⟩
  | idle hidle | writesIn _ _ _ _ hidle | issues _ _ hidle => simp [hidle] at hbusy
  | writesInWhileBusy => cases hfault
  | responds | readsUnwritten | resets => cases hbusy'

/-- Settles O33: the read by its definition; the write's two bytes are the shifted and the truncated value. -/
theorem mixedWidthAccessesAgree : Obligations.MixedWidthAccessesAgree := by
  intro p inBuf out a v
  refine ⟨fun hi lo hhi hlo => by simp [memRead2, hhi, hlo], fun ha => ?_⟩
  rw [shiftRight_setWidth_eq_hiByte, setWidth_eq_loByte]
  exact ⟨_, _, memWrite1_of_lt out a _ (by omega), memWrite1_of_lt _ _ _ ha, memWrite2_of_lt out a v ha⟩

/-- Settles O39: the host's turn is its write, whose first check is the address. -/
theorem hostWriteOutsideInFaults : Obligations.HostWriteOutsideInFaults := by
  intro s a b rest hturn ha
  rw [step_of_host_turn hturn]
  exact if_pos ha

end Sys2Proof.Proofs
end

section
/-! SUPPORT. What the decoder takes from a word (30_encoding.md R66 to R73). -/

namespace Sys2Proof

open Claims

theorem Instr.opcode_mem_opcodes (i : Instr) : i.opcode ∈ opcodes := by
  cases i <;> simp [Instr.opcode, opcodes]

/-- What the decoder takes from a word: the opcode, and the operand fields of the table of 30_encoding.md R67. -/
theorem opcode_fields_of_decode {w : CmdWord} {i : Instr} (h : decode w = .ok i) :
    i.opcode = opcodeOf w ∧ i.fields = (List.range (usedFields (opcodeOf w))).map (fieldOf w) := by
  unfold decode at h
  split at h <;> cases h
  all_goals
    rename_i hop
    rw [(BitVec.toNat_eq_nat.1 hop).2]
    simp [Instr.opcode, Instr.fields, usedFields, halfFieldOf, List.range_succ]

theorem not_mem_opcodes_of_contains {op : Byte} (h : opcodes.contains op = false) : op ∉ opcodes := by
  simpa using h

theorem decode_error_eq {w : CmdWord} {e : DecodeError} (h : decode w = .error e) :
    e = .reservedOpcode (opcodeOf w) := by
  unfold decode at h
  split at h <;> cases h
  rfl

theorem decode_of_opcode_mem {w : CmdWord} (h : opcodeOf w ∈ opcodes) : ∃ i, decode w = .ok i := by
  simp only [opcodes, List.mem_cons, List.not_mem_nil, or_false] at h
  rcases h with h | h | h | h | h | h | h | h | h | h <;> simp [decode, h]

theorem decode_of_opcode_not_mem {w : CmdWord} (h : opcodeOf w ∉ opcodes) :
    decode w = .error (.reservedOpcode (opcodeOf w)) := by
  cases hd : decode w with
  | ok i => exact absurd ((opcode_fields_of_decode hd).1 ▸ i.opcode_mem_opcodes) h
  | error e => rw [decode_error_eq hd]

/-- The encoder writes the opcode and the fields and nothing else, so that they determine the instruction. -/
theorem Instr.eq_of_opcode_fields {i j : Instr} (hop : i.opcode = j.opcode) (hfields : i.fields = j.fields) :
    i = j := by
  have h : decode (encode i) = decode (encode j) := by simp only [encode, hop, hfields]
  rw [decode_encode, decode_encode] at h
  exact Except.ok.inj h

/-- The decoder looks at no field its operation does not use (30_encoding.md R72). -/
theorem decode_congr {w w' : CmdWord} (hop : opcodeOf w = opcodeOf w')
    (hfields : ∀ k, k < usedFields (opcodeOf w) → fieldOf w k = fieldOf w' k) : decode w = decode w' := by
  by_cases hmem : opcodeOf w ∈ opcodes
  · obtain ⟨i, hi⟩ := decode_of_opcode_mem hmem
    obtain ⟨j, hj⟩ := decode_of_opcode_mem (hop ▸ hmem)
    obtain ⟨hiop, hif⟩ := opcode_fields_of_decode hi
    obtain ⟨hjop, hjf⟩ := opcode_fields_of_decode hj
    have hij : i.fields = j.fields := by
      rw [hif, hjf, ← hop]
      exact List.map_congr_left fun k hk => hfields k (List.mem_range.1 hk)
    rw [hi, hj, Instr.eq_of_opcode_fields (hiop.trans (hop.trans hjop.symm)) hij]
  · rw [decode_of_opcode_not_mem hmem, decode_of_opcode_not_mem (hop ▸ hmem), hop]

end Sys2Proof
end

section
/-! SUPPORT. Completions in an error, and when a pack operation succeeds (30_encoding.md R71, R79). -/

namespace Sys2Proof.Machine

open Claims

/-! ### Completions in an error -/

/-- A response changes nothing outside the response fields and the handshake (10_state.md R31). -/
theorem completed_respond (s : State) (r : Response) : Completed s (s.respond r) :=
  ⟨rfl, rfl, rfl, rfl, fun _ => rfl, rfl, rfl, rfl, rfl, rfl⟩

/-- After an error every response field but STATUS is zero (10_state.md R33). -/
theorem errs_takeError (s : State) (e : Error) : Errs (s.takeError e) e.code :=
  ⟨rfl, rfl, errorResponse_outByte e, rfl⟩

theorem unitStep_of_reserved {s : State} (h : opcodeOf s.cmd ∉ opcodes) :
    unitStep s = .next (s.takeError .illegalOperation) := by
  simp [unitStep, decode_of_opcode_not_mem h]

/-! ### When a pack operation succeeds -/

theorem Error.code_ne_statusOk (e : Error) : e.code ≠ statusOk := by cases e <;> decide

/-- The operation answers STATUS 0x00 where `c` holds, and raises an error where it does not. -/
def Op.SucceedsIf (c : Prop) (o : Op Response) : Prop :=
  Op.Ends (fun r => c ∧ r.status = statusOk) (fun x => ¬ c ∧ ∃ e, x = .raised e) o

theorem statusOf_complete_iff {c : Prop} {o : Op Response} (h : o.SucceedsIf c) (s : State) :
    statusOf (complete o s) = some 0x00#8 ↔ c := by
  cases o with
  | ok r =>
    obtain ⟨hc, hstatus⟩ := h
    simp [statusOf, hstatus, statusOk, hc]
  | error x =>
    obtain ⟨hc, e, rfl⟩ := h
    exact iff_of_false (fun hstatus => e.code_ne_statusOk (Option.some_inj.1 hstatus)) hc

/-- A check in front adds its own condition. -/
theorem Op.SucceedsIf.check {c : Prop} {f : Unit → Op Response} (b : Bool) (e : Error) (h : (f ()).SucceedsIf c) :
    Op.SucceedsIf (b = false ∧ c) (raiseIf b e >>= f) := by
  cases b with
  | true => exact ⟨nofun, e, rfl⟩
  | false => simpa [Op.SucceedsIf] using h

/-- An operation that can only end well succeeds under no condition. -/
theorem Op.succeedsIf_true {o : Op Response} (h : Op.Ends (fun r => r.status = statusOk) (fun _ => False) o) :
    o.SucceedsIf True := by
  cases o with
  | ok r => exact ⟨trivial, h⟩
  | error x => exact h.elim

/-- Once the checks are passed, the writes stay inside OUT and the response follows. -/
theorem gaPack_succeedsIf (main middle sub : Byte) :
    (gaPack main middle sub).SucceedsIf ((Instr.gaPack main middle sub).wellFormed = true) := by
  have h : (gaPack main middle sub).SucceedsIf _ := .check _ _ <| .check _ _ <| Op.succeedsIf_true (by simp)
  simpa [Instr.wellFormed, gaInRange] using h

theorem iaPack_succeedsIf (area line device : Byte) :
    (iaPack area line device).SucceedsIf ((Instr.iaPack area line device).wellFormed = true) := by
  have h : (iaPack area line device).SucceedsIf _ := .check _ _ <| .check _ _ <| Op.succeedsIf_true (by simp)
  simpa [Instr.wellFormed, iaInRange] using h

theorem tailPack_succeedsIf (ds apci value : Byte) :
    (tailPack ds apci value).SucceedsIf ((Instr.tailPack ds apci value).wellFormed = true) := by
  have h : (tailPack ds apci value).SucceedsIf _ := .check _ _ <| .check _ _ <|
    Op.succeedsIf_true (by simp [writeTail])
  simpa [Instr.wellFormed, tailInRange, supportedSize, or_iff_not_imp_left] using h

theorem treqPack_succeedsIf (ch seq mc main middle sub ds apci value : Byte) :
    (treqPack ch seq mc main middle sub ds apci value).SucceedsIf
      ((Instr.treqPack ch seq mc main middle sub ds apci value).wellFormed = true) := by
  have h : (treqPack ch seq mc main middle sub ds apci value).SucceedsIf _ :=
    .check _ _ <| .check _ _ <| .check _ _ <| .check _ _ <|
      Op.succeedsIf_true (by simp [writeHeader, writeTail])
  simpa [Instr.wellFormed, gaInRange, tailInRange, supportedSize, or_iff_not_imp_left, and_assoc] using h

end Sys2Proof.Machine
end

section
/-! SUPPORT. Which operands and address texts the assembler takes (30_encoding.md R74 to R76). -/

namespace Sys2Proof.Machine

open Claims

section asm
variable {ns : List Nat} {n m mi sub : Nat} {sep : Char} {t x y z : List Char} {i : Instr}

/-! ### Operands -/

theorem asmByte_of_lt (h : n < 256) : asmByte n = .ok (byte n) := if_pos h

theorem asmByte_of_not_lt (h : ¬ n < 256) : asmByte n = .error .outOfWidth := if_neg h

theorem asmHalf_of_lt (h : n < 65536) : asmHalf n = .ok (half n) := if_pos h

theorem asmHalf_of_not_lt (h : ¬ n < 65536) : asmHalf n = .error .outOfWidth := if_neg h

@[simp] theorem fitByte_nil : FitByte [] := nofun

@[simp] theorem fitByte_cons : FitByte (n :: ns) ↔ n < 256 ∧ FitByte ns := List.forall_mem_cons

@[simp] theorem fitHalf_nil : FitHalf [] := nofun

@[simp] theorem fitHalf_cons : FitHalf (n :: ns) ↔ n < 65536 ∧ FitHalf ns := List.forall_mem_cons

/-- The instruction where the condition holds, and the refusal for width where it does not: `AssemblesIf` on what is
left to assemble. -/
def TakenIf (c : Prop) (o : Except AsmError Instr) (i : Instr) : Prop :=
  (c → o = .ok i) ∧ (¬ c → o = .error .outOfWidth)

theorem assemblesIf_of_takenIf {c : Prop} {name : AsmName} {operands : List AsmOperand}
    (h : TakenIf c (assemble name operands) i) : AssemblesIf c name operands i := h

/-- An operand in front is taken, and the rest decides; or it is refused for its width. -/
theorem TakenIf.operand {α : Type} {c c' : Prop} {o : Except AsmError α} {a : α} {f : α → Except AsmError Instr}
    (hok : c → o = .ok a) (herr : ¬ c → o = .error .outOfWidth) (h : TakenIf c' (f a) i) :
    TakenIf (c ∧ c') (o >>= f) i := by
  by_cases hc : c
  · rw [hok hc]
    exact ⟨fun hcc => h.1 hcc.2, fun hn => h.2 fun hc' => hn ⟨hc, hc'⟩⟩
  · rw [herr hc]
    exact ⟨fun hcc => absurd hcc.1 hc, fun _ => rfl⟩

theorem TakenIf.byteOperand {f : Byte → Except AsmError Instr} (h : TakenIf (FitByte ns) (f (byte n)) i) :
    TakenIf (FitByte (n :: ns)) (asmByte n >>= f) i := by
  rw [fitByte_cons]
  exact h.operand asmByte_of_lt asmByte_of_not_lt

theorem TakenIf.halfOperand {f : Half → Except AsmError Instr} (h : TakenIf (FitHalf ns) (f (half n)) i) :
    TakenIf (FitHalf (n :: ns)) (asmHalf n >>= f) i := by
  rw [fitHalf_cons]
  exact h.operand asmHalf_of_lt asmHalf_of_not_lt

theorem TakenIf.lastByte : TakenIf (FitByte []) (.ok i) i := ⟨fun _ => rfl, fun h => absurd fitByte_nil h⟩

theorem TakenIf.lastHalf : TakenIf (FitHalf []) (.ok i) i := ⟨fun _ => rfl, fun h => absurd fitHalf_nil h⟩

theorem assemble_gaPack_takenIf (a b c : Nat) :
    TakenIf (FitByte [a, b, c]) (assemble .gaPack [.num a, .num b, .num c]) (.gaPack (byte a) (byte b) (byte c)) :=
  .byteOperand <| .byteOperand <| .byteOperand .lastByte

theorem assemble_iaPack_takenIf (a b c : Nat) :
    TakenIf (FitByte [a, b, c]) (assemble .iaPack [.num a, .num b, .num c]) (.iaPack (byte a) (byte b) (byte c)) :=
  .byteOperand <| .byteOperand <| .byteOperand .lastByte

/-! ### Address texts -/

theorem asmSegments_of_length_ne (h : (splitText sep t).length ≠ 3) : asmSegments sep t = .error .segmentCount := by
  unfold asmSegments
  split
  · rename_i hs
    rw [hs] at h
    exact absurd rfl h
  · rfl

section literals
variable (hx : literalValue x = some m) (hy : literalValue y = some mi) (hz : literalValue z = some sub)
include hx hy hz

/-- A text of three literals stands for its segments written as operands. -/
theorem asmSegments_of_split (hs : splitText sep t = [x, y, z]) :
    asmSegments sep t = (do .ok (← asmByte m, ← asmByte mi, ← asmByte sub)) := by
  simp only [asmSegments, asmSegment, hs, hx, hy, hz]

theorem assemble_gaPack_text (hs : splitText '/' t = [x, y, z]) :
    assemble .gaPack [.text t] = assemble .gaPack [.num m, .num mi, .num sub] := by
  simp only [assemble, asmSegments_of_split hx hy hz hs, bind_assoc]
  rfl

theorem assemble_iaPack_text (hs : splitText '.' t = [x, y, z]) :
    assemble .iaPack [.text t] = assemble .iaPack [.num m, .num mi, .num sub] := by
  simp only [assemble, asmSegments_of_split hx hy hz hs, bind_assoc]
  rfl

/-- A treq pseudo-instruction is `treq_pack` with the sequence counter 0, the message code 0x11 and its command code
supplied (30_encoding.md R76). -/
theorem asmTreq_eq_assemble (hs : splitText '/' t = [x, y, z]) {k : Nat} (hk : k < 256) (ch ds value : Nat) :
    asmTreq (byte k) ch t ds value
      = assemble .treqPack [.num ch, .num 0, .num 0x11, .num m, .num mi, .num sub, .num ds, .num k, .num value] := by
  simp only [assemble, asmTreq, asmSegments_of_split hx hy hz hs, asmByte_of_lt hk, bind_assoc]
  rfl

/-- Its six operands are taken in order, the segments of the text after the channel. -/
theorem asmTreq_takenIf (hs : splitText '/' t = [x, y, z]) (apci : Byte) (ch ds value : Nat) :
    TakenIf (FitByte [ch, m, mi, sub, ds, value]) (asmTreq apci ch t ds value)
      (.treqPack (byte ch) 0#8 0x11#8 (byte m) (byte mi) (byte sub) (byte ds) apci (byte value)) := by
  simp only [asmTreq, asmSegments_of_split hx hy hz hs, bind_assoc]
  exact .byteOperand <| .byteOperand <| .byteOperand <| .byteOperand <| .byteOperand <| .byteOperand .lastByte

end literals

/-- With another number of segments a treq pseudo-instruction is refused, if not for its channel then for the text. -/
theorem asmTreq_of_length_ne (h : (splitText '/' t).length ≠ 3) (apci : Byte) (ch ds value : Nat) :
    asmTreq apci ch t ds value ≠ .ok i := by
  unfold asmTreq
  rw [asmSegments_of_length_ne h]
  cases asmByte ch <;> nofun

end asm

end Sys2Proof.Machine
end

section
/-! SUPPORT. The statements of the encoding (30_encoding.md), settled. -/

namespace Sys2Proof.Proofs

open Sys2Proof.Machine Sys2Proof.Claims

/-- Settles O1: the decoder looks for each operand where the encoder writes it. -/
theorem decodeOfEncodeIsTheInstruction : Obligations.DecodeOfEncodeIsTheInstruction := decode_encode

/-- Settles O3: one of the ten opcodes selects an arm of the decoder, and no arm is selected by another. -/
theorem decodeAcceptsExactlyTheTenOpcodes : Obligations.DecodeAcceptsExactlyTheTenOpcodes := by
  refine ⟨fun w hop => ?_, fun w hop => decode_of_opcode_not_mem (not_mem_opcodes_of_contains hop)⟩
  obtain ⟨i, hi⟩ := decode_of_opcode_mem (List.contains_iff_mem.1 hop)
  exact ⟨i, hi, (opcode_fields_of_decode hi).1⟩

/-- Settles O4: on the unit's turn the decoder rejects the word and the error is taken. -/
theorem reservedOpcodeRaisesIllegalOperation : Obligations.ReservedOpcodeRaisesIllegalOperation := by
  intro s rest hbusy hop hturn
  have hstep : step s = unitTurn { s with agenda := rest } := by
    rcases hturn with ⟨hagenda, rfl⟩ | hagenda
    · rw [step_of_no_turn hagenda, ← hagenda]
    · exact step_of_unit_turn hagenda
  refine ⟨State.takeError { s with agenda := rest } .illegalOperation, ?_, errs_takeError _ .illegalOperation,
    completed_respond _ _⟩
  rw [hstep, unitTurn_of_busy (s := { s with agenda := rest }) hbusy]
  exact unitStep_of_reserved (s := { s with agenda := rest }) (not_mem_opcodes_of_contains hop)

/-- Settles O5: the two words select one operation on the same operands, and how it ends does not depend on CMD. -/
theorem ignoredFieldsChangeNothing : Obligations.IgnoredFieldsChangeNothing := by
  intro w w' hop hfields s
  have hcmd : cmdOp w s.params s.inBuf = cmdOp w' s.params s.inBuf := by
    simp only [cmdOp, decode_congr hop hfields]
  simp only [unitStep_eq_complete, hcmd]
  cases cmdOp w' s.params s.inBuf with
  | ok r => rfl
  | error x => cases x <;> rfl

/-- Settles O27: each pack operation checks the ranges of its operands and writes inside OUT. -/
theorem packSucceedsExactlyInRange : Obligations.PackSucceedsExactlyInRange := fun s =>
  ⟨fun main middle sub => statusOf_complete_iff (gaPack_succeedsIf main middle sub) s,
    fun area line device => statusOf_complete_iff (iaPack_succeedsIf area line device) s,
    fun ds apci value => statusOf_complete_iff (tailPack_succeedsIf ds apci value) s,
    fun ch seq mc main middle sub ds apci value =>
      statusOf_complete_iff (treqPack_succeedsIf ch seq mc main middle sub ds apci value) s⟩

/-- Settles O51: a text of three literals is read as the operands they stand for, and any other is refused. -/
theorem pseudoInstructionsExpand : Obligations.PseudoInstructionsExpand := by
  refine ⟨fun t x y z m mi sub hx hy hz => ⟨fun hs => ⟨assemble_gaPack_text hx hy hz hs, fun ch ds value => ?_⟩,
    assemble_iaPack_text hx hy hz⟩, fun t i => ⟨fun h => ⟨?_, fun ch ds value => ?_⟩, fun h => ?_⟩⟩
  · have htreq {k : Nat} (hk : k < 256) := asmTreq_eq_assemble hx hy hz hs hk ch ds
    exact ⟨htreq (k := 2) (by decide) value, htreq (k := 0) (by decide) 0, htreq (k := 1) (by decide) value⟩
  · rw [assemble, asmSegments_of_length_ne h]
    nofun
  · exact ⟨asmTreq_of_length_ne h _ ch ds value, asmTreq_of_length_ne h _ ch ds 0,
      asmTreq_of_length_ne h _ ch ds value⟩
  · rw [assemble, asmSegments_of_length_ne h]
    nofun

/-- Settles O52: each form takes its operands in order, each for its width; a text of three literals is three
operands. -/
theorem assemblerChecksOperandWidths : Obligations.AssemblerChecksOperandWidths := by
  refine ⟨fun a b => ⟨?_, ?_, ?_, ?_, ?_⟩, fun a b c d => ⟨?_, ?_, ?_, ?_⟩,
    fun ch seq mc m mi sub ds apci value => ?_, fun t x y z m mi sub hx hy hz => ⟨fun hs => ?_, fun hs =>
      ⟨?_, fun ch ds value => ⟨?_, ?_, ?_⟩⟩⟩⟩ <;> apply assemblesIf_of_takenIf
  · exact .byteOperand <| .byteOperand .lastByte
  · exact .byteOperand <| .byteOperand .lastByte
  · exact .halfOperand <| .halfOperand .lastHalf
  · exact .halfOperand .lastHalf
  · exact .halfOperand .lastHalf
  · exact assemble_gaPack_takenIf a b c
  · exact assemble_iaPack_takenIf a b c
  · exact .byteOperand <| .byteOperand <| .byteOperand .lastByte
  · exact .byteOperand <| .byteOperand <| .byteOperand <| .byteOperand .lastByte
  · exact .byteOperand <| .byteOperand <| .byteOperand <| .byteOperand <| .byteOperand <| .byteOperand <|
      .byteOperand <| .byteOperand <| .byteOperand .lastByte
  · rw [assemble_iaPack_text hx hy hz hs]
    exact assemble_iaPack_takenIf m mi sub
  · rw [assemble_gaPack_text hx hy hz hs]
    exact assemble_gaPack_takenIf m mi sub
  · exact asmTreq_takenIf hx hy hz hs 2#8 ch ds value
  · have hfit : FitByte [ch, m, mi, sub, ds] ↔ FitByte [ch, m, mi, sub, ds, 0] := by simp
    rw [hfit]
    exact asmTreq_takenIf hx hy hz hs 0#8 ch ds 0
  · exact asmTreq_takenIf hx hy hz hs 1#8 ch ds value

/-- Settles O2, by evaluation of the decoder. -/
theorem specWordsDecode : Obligations.SpecWordsDecode := by
  unfold Obligations.SpecWordsDecode
  decide

end Sys2Proof.Proofs
end

section
/-! SUPPORT. What the decoder answers to a word's opcode and fields, and what a completion shows of the bytes and the
results an operation wrote (10_state.md R31 to R33). -/

namespace Sys2Proof

open Claims

/-! ### The decoder, by opcode and fields -/

/-- The opcode and the fields it uses select the instruction (30_encoding.md R67, R70). -/
theorem decode_of_opcode_fields {w : CmdWord} {i : Instr} (hop : opcodeOf w = i.opcode)
    (hfields : i.fields = (List.range (usedFields i.opcode)).map (fieldOf w)) : decode w = .ok i := by
  obtain ⟨j, hj⟩ := decode_of_opcode_mem (hop ▸ i.opcode_mem_opcodes)
  obtain ⟨hjop, hjf⟩ := opcode_fields_of_decode hj
  rw [hj, Instr.eq_of_opcode_fields (hjop.trans hop) (hjf.trans (hop ▸ hfields.symm))]

namespace Machine

/-! ### The bytes written -/

/-- Bytes written to `OUT` one after another from address `a`. -/
def Memory.writeBytes (m : Memory) (a : Nat) : List Byte → Memory
  | [] => m
  | b :: bs => Memory.writeBytes (Memory.set outBlank m a b) (a + 1) bs

/-- Below the first address `OUT` stays as it was; from there on it holds the bytes. -/
theorem Memory.getD_writeBytes (m : Memory) (a : Nat) (bs : List Byte) (c : Nat) :
    (Memory.get outBlank (Memory.writeBytes m a bs) c).getD 0#8
      = if a ≤ c then bs.getD (c - a) ((Memory.get outBlank m c).getD 0#8)
        else (Memory.get outBlank m c).getD 0#8 := by
  induction bs generalizing m a with
  | nil => simp [Memory.writeBytes]
  | cons b bs ih =>
    rw [Memory.writeBytes, ih, Memory.getD_set_out]
    rcases Nat.lt_trichotomy c a with h | rfl | h
    · simp [h.ne, Nat.not_le.2 h, Nat.not_le.2 (Nat.lt_succ_of_lt h)]
    · simp
    · have hd : c - a = c - (a + 1) + 1 := by omega
      simp [hd, h.le, h.ne', Nat.succ_le_of_lt h]

/-- Written from address 0 on an `OUT` of zeros, the bytes stand at their places with zeros past them. -/
theorem packed_writeBytes_outByte (bs : List Byte) (len : Byte) (a : Nat) :
    (packed (Memory.writeBytes [] 0 bs) len).outByte a = bs.getD a 0#8 :=
  (Memory.getD_writeBytes [] 0 bs a).trans (if_pos (Nat.zero_le a))

/-! ### The completion -/

section completion
variable {i : Instr} {s : State}

theorem exec_of_ok {r : Response} (h : opOf i s.params s.inBuf = .ok r) : exec i s = .next (s.respond r) := by
  rw [exec_eq_complete, h, complete_ok]

theorem exec_of_raised {e : Error} (h : opOf i s.params s.inBuf = .error (.raised e)) :
    exec i s = .next (s.takeError e) := by
  rw [exec_eq_complete, h, complete_raised]

/-- An operation that ends with bytes written from address 0 completes with those bytes (10_state.md R32). -/
theorem completesWith_of_packed {bs : List Byte} {len : Byte} (hlen : len.toNat = bs.length)
    (h : opOf i s.params s.inBuf = .ok (packed (Memory.writeBytes [] 0 bs) len)) : CompletesWith i s bs {} :=
  ⟨_, exec_of_ok h, ⟨rfl, hlen, packed_writeBytes_outByte bs len, rfl⟩, completed_respond _ _⟩

/-- An operation that ends with results completes with those results and no byte (10_state.md R32). -/
theorem completesWith_of_unpacked {rs : Results} (h : opOf i s.params s.inBuf = .ok (unpacked rs)) :
    CompletesWith i s [] rs :=
  ⟨_, exec_of_ok h, ⟨rfl, rfl, unpacked_outByte rs, rfl⟩, completed_respond _ _⟩

/-- An operation that raises an error completes with its code (10_state.md R33). -/
theorem completesInError_of_raised {e : Error} (h : opOf i s.params s.inBuf = .error (.raised e)) :
    CompletesInError i s e.code :=
  ⟨_, exec_of_raised h, errs_takeError s e, completed_respond _ _⟩

end completion

/-- Of two checks that raise the same error, either raises it. -/
theorem raiseIf_raiseIf_of_or {α : Type} {c d : Bool} {e : Error} {f : Unit → Op α} (h : c = true ∨ d = true) :
    (raiseIf c e >>= fun _ => raiseIf d e >>= f) = .error (.raised e) := by
  cases c with
  | true => rfl
  | false =>
    obtain rfl : d = true := by simpa using h
    rfl

end Machine
end Sys2Proof
end

section
/-! SUPPORT. What the four operations of the address unit end in (40_address.md R87 to R90), and what is left of two
bytes unpacked and then packed (R93). -/

namespace Sys2Proof.Machine

section groupAddress
variable {main middle : Byte} (sub b0 b1 : Byte)

theorem gaPack_of_inRange (hmain : main ≤ 31#8) (hmiddle : middle ≤ 7#8) :
    gaPack main middle sub = .ok (packed (Memory.writeBytes [] 0 [main <<< 3 ||| middle, sub]) 2#8) := by
  simp [gaPack, Memory.writeBytes, gaByte0_eq hmiddle, BitVec.not_lt.2 hmain, BitVec.not_lt.2 hmiddle]

theorem gaPack_of_outOfRange (h : 31#8 < main ∨ 7#8 < middle) :
    gaPack main middle sub = .error (.raised .rangeError) :=
  raiseIf_raiseIf_of_or (h.imp (decide_eq_true ·) (decide_eq_true ·))

theorem gaUnpack_eq : gaUnpack b0 b1 = .ok (unpacked { r0 := b0 >>> 3, r1 := b0 &&& 7#8, r2 := b1 }) := by
  rw [gaUnpack, gaMain_eq, gaMiddle_eq]

end groupAddress

section individualAddress
variable {area line : Byte} (device b0 b1 : Byte)

theorem iaPack_of_inRange (harea : area ≤ 15#8) (hline : line ≤ 15#8) :
    iaPack area line device = .ok (packed (Memory.writeBytes [] 0 [area <<< 4 ||| line, device]) 2#8) := by
  simp [iaPack, Memory.writeBytes, hiByte_iaWord hline, BitVec.not_lt.2 harea, BitVec.not_lt.2 hline]

theorem iaPack_of_outOfRange (h : 15#8 < area ∨ 15#8 < line) :
    iaPack area line device = .error (.raised .rangeError) :=
  raiseIf_raiseIf_of_or (h.imp (decide_eq_true ·) (decide_eq_true ·))

theorem iaUnpack_eq : iaUnpack b0 b1 = .ok (unpacked { r0 := b0 >>> 4, r1 := b0 &&& 15#8, r2 := b1 }) := by
  rw [iaUnpack, iaArea_append, iaLine_append, iaDevice_append]

end individualAddress

/-! ### Unpacked and packed again -/

section recombine
variable (x : Byte)

/-- A masked byte is at most the mask. -/
theorem and_mask_le (m : Byte) : x &&& m ≤ m := (BitVec.toNat_and x m).trans_le Nat.and_le_right

theorem shift3_or_mask7 : (x >>> 3) <<< 3 ||| (x &&& 7#8) = x := by
  ext k hk
  interval_cases k <;> simp

theorem shift4_or_mask15 : (x >>> 4) <<< 4 ||| (x &&& 15#8) = x := by
  ext k hk
  interval_cases k <;> simp

end recombine

end Sys2Proof.Machine
end

section
/-! SUPPORT. The statements of the address unit (40_address.md), settled. -/

namespace Sys2Proof.Proofs

open Sys2Proof.Machine Sys2Proof.Claims

/-- Settles O7: the decoder's arm, then the operation with both checks passed and with one failed. -/
theorem gaPackWritesTheWireBytes : Obligations.GaPackWritesTheWireBytes :=
  ⟨fun w hop => decode_of_opcode_fields (i := .gaPack (F w 0) (F w 1) (F w 2)) hop rfl, fun _ _ sub _ =>
    ⟨fun hmain hmiddle => completesWith_of_packed rfl (gaPack_of_inRange sub hmain hmiddle),
      fun h => completesInError_of_raised (e := .rangeError) (gaPack_of_outOfRange sub h)⟩⟩

/-- Settles O8: the decoder's arm, then the results in the source's spelling. -/
theorem gaUnpackSplitsTheWireBytes : Obligations.GaUnpackSplitsTheWireBytes :=
  ⟨fun w hop => decode_of_opcode_fields (i := .gaUnpack (F w 0) (F w 1)) hop rfl, fun b0 b1 _ =>
    completesWith_of_unpacked (gaUnpack_eq b0 b1)⟩

/-- Settles O9: the decoder's arm, then the operation with both checks passed and with one failed. -/
theorem iaPackWritesTheWireBytes : Obligations.IaPackWritesTheWireBytes :=
  ⟨fun w hop => decode_of_opcode_fields (i := .iaPack (F w 0) (F w 1) (F w 2)) hop rfl, fun _ _ device _ =>
    ⟨fun harea hline => completesWith_of_packed rfl (iaPack_of_inRange device harea hline),
      fun h => completesInError_of_raised (e := .rangeError) (iaPack_of_outOfRange device h)⟩⟩

/-- Settles O10: the decoder's arm, then the results in the source's spelling. -/
theorem iaUnpackSplitsTheWireBytes : Obligations.IaUnpackSplitsTheWireBytes :=
  ⟨fun w hop => decode_of_opcode_fields (i := .iaUnpack (F w 0) (F w 1)) hop rfl, fun b0 b1 _ =>
    completesWith_of_unpacked (iaUnpack_eq b0 b1)⟩

/-- Settles O11: the bytes O7 gives are split by O8, and within the ranges the shifted and the masked part are the
operands. -/
theorem groupAddressRoundTrip : Obligations.GroupAddressRoundTrip := by
  intro main middle sub s s' hmain hmiddle
  obtain ⟨t, ht, ⟨hstatus, -, hbyte, -⟩, -⟩ := (gaPackWritesTheWireBytes.2 main middle sub s).1 hmain hmiddle
  have h := gaUnpackSplitsTheWireBytes.2 (main <<< 3 ||| middle) sub s'
  rw [shift3_or_high hmain hmiddle, shift3_or_low hmiddle] at h
  exact ⟨t, ht, hstatus, by rw [hbyte, hbyte]; exact h⟩

/-- Settles O12: the bytes O9 gives are split by O10, and within the ranges the shifted and the masked part are the
operands. -/
theorem individualAddressRoundTrip : Obligations.IndividualAddressRoundTrip := by
  intro area line device s s' harea hline
  obtain ⟨t, ht, ⟨hstatus, -, hbyte, -⟩, -⟩ := (iaPackWritesTheWireBytes.2 area line device s).1 harea hline
  have h := iaUnpackSplitsTheWireBytes.2 (area <<< 4 ||| line) device s'
  rw [shift4_or_high harea hline, shift4_or_low hline] at h
  exact ⟨t, ht, hstatus, by rw [hbyte, hbyte]; exact h⟩

/-- Settles O13: the parts of a byte lie in the ranges of the pack operations, and put together they are the byte. -/
theorem bothWireFormsAreBijective : Obligations.BothWireFormsAreBijective := by
  intro b0 b1 s s'
  constructor
  · obtain ⟨t, ht, ⟨-, -, -, hresults⟩, -⟩ := gaUnpackSplitsTheWireBytes.2 b0 b1 s
    have hmain : b0 >>> 3 ≤ 31#8 := Nat.le_of_lt_succ (b0.toNat_ushiftRight_lt 3 (by decide))
    have h := (gaPackWritesTheWireBytes.2 (b0 >>> 3) (b0 &&& 7#8) b1 s').1 hmain (and_mask_le b0 7#8)
    rw [shift3_or_mask7] at h
    exact ⟨t, ht, by rw [hresults]; exact h⟩
  · obtain ⟨t, ht, ⟨-, -, -, hresults⟩, -⟩ := iaUnpackSplitsTheWireBytes.2 b0 b1 s
    have harea : b0 >>> 4 ≤ 15#8 := Nat.le_of_lt_succ (b0.toNat_ushiftRight_lt 4 (by decide))
    have h := (iaPackWritesTheWireBytes.2 (b0 >>> 4) (b0 &&& 15#8) b1 s').1 harea (and_mask_le b0 15#8)
    rw [shift4_or_mask15] at h
    exact ⟨t, ht, by rw [hresults]; exact h⟩

end Sys2Proof.Proofs
end

section
/-! SUPPORT. What the two operations of the header unit end in (41_header.md R102, R103). -/

namespace Sys2Proof.Machine

/-- The six bytes of a header, each high byte first (41_header.md R100). -/
def headerBytes (st tl : Half) : List Byte := [0x06#8, 0x10#8, hiByte st, loByte st, hiByte tl, loByte tl]

/-- The header's bytes as shifted and truncated values. -/
theorem headerBytes_eq (st tl : Half) : headerBytes st tl =
    [0x06#8, 0x10#8, (st >>> 8).setWidth 8, st.setWidth 8, (tl >>> 8).setWidth 8, tl.setWidth 8] := by
  rw [headerBytes, shiftRight_setWidth_eq_hiByte st, shiftRight_setWidth_eq_hiByte tl, setWidth_eq_loByte st,
    setWidth_eq_loByte tl]

/-- The header is its six bytes written from address 0. -/
theorem writeHeader_eq (out : Memory) (st tl : Half) :
    writeHeader out st tl = .ok (Memory.writeBytes out 0 (headerBytes st tl)) := by
  simp [writeHeader, headerBytes, Memory.writeBytes]

theorem hdrPack_eq (st tl : Half) : hdrPack st tl = .ok (packed (Memory.writeBytes [] 0 (headerBytes st tl)) 6#8) := by
  rw [hdrPack, writeHeader_eq, Op.ok_bind]

section unpack
variable {p : Params} {m : Memory} {n : Half}

/-- The length check comes before every read. -/
theorem hdrUnpack_of_short (hn : n < 6#16) : hdrUnpack p m n = .error (.raised .lengthError) := by
  simp [hdrUnpack, hn]

section written
variable {hl ver st1 st0 tl1 tl0 : Byte} (hp : p.wellFormed = true) (hn : 6#16 ≤ n)
  (h0 : Memory.get inBlank m 0 = some hl) (h1 : Memory.get inBlank m 1 = some ver)
  (h2 : Memory.get inBlank m 2 = some st1) (h3 : Memory.get inBlank m 3 = some st0)
  (h4 : Memory.get inBlank m 4 = some tl1) (h5 : Memory.get inBlank m 5 = some tl0)
include hp hn h0 h1 h2 h3 h4 h5

/-- With the six bytes written, the check of the tag decides between the error and the bytes as read. -/
theorem hdrUnpack_of_written : hdrUnpack p m n =
    (raiseIf (!p.knownTags.contains (st1 ++ st0 : Half)) .unsupportedServiceType >>= fun _ =>
      .ok (unpacked { r0 := hl, r1 := ver, r2 := st1, r3 := st0, r4 := tl1, r5 := tl0 })) := by
  have hcap (a : Nat) (ha : a < 22) : a < p.inCap := ha.trans_le (Params.inCap_of_wellFormed hp)
  simp [hdrUnpack, BitVec.not_lt.2 hn, memRead1_of_written p m 0 hl (hcap 0 (by decide)) h0,
    memRead1_of_written p m 1 ver (hcap 1 (by decide)) h1,
    memRead2_of_written p m 2 st1 st0 (hcap 3 (by decide)) h2 h3,
    memRead2_of_written p m 4 tl1 tl0 (hcap 5 (by decide)) h4 h5]

theorem hdrUnpack_of_unknown (htag : (st1 ++ st0 : Half) ∉ p.knownTags) :
    hdrUnpack p m n = .error (.raised .unsupportedServiceType) := by
  rw [hdrUnpack_of_written hp hn h0 h1 h2 h3 h4 h5]
  simp [htag]

theorem hdrUnpack_of_known (htag : (st1 ++ st0 : Half) ∈ p.knownTags) : hdrUnpack p m n =
    .ok (unpacked { r0 := hl, r1 := ver, r2 := st1, r3 := st0, r4 := tl1, r5 := tl0 }) := by
  rw [hdrUnpack_of_written hp hn h0 h1 h2 h3 h4 h5]
  simp [htag]

end written
end unpack

end Sys2Proof.Machine
end

section
/-! SUPPORT. The statements of the header unit (41_header.md), settled. -/

namespace Sys2Proof.Proofs

open Sys2Proof.Machine Sys2Proof.Claims

/-- Settles O14: the decoder's arm, then the six bytes in the source's spelling. -/
theorem hdrPackWritesTheHeader : Obligations.HdrPackWritesTheHeader := by
  refine ⟨fun w hop => decode_of_opcode_fields (i := .hdrPack (F w 0 ++ F w 1) (F w 2 ++ F w 3)) hop ?_,
    fun st tl s => ?_⟩
  · simp only [Instr.fields, hiByte_append, loByte_append]
    rfl
  · rw [← headerBytes_eq]
    exact completesWith_of_packed rfl (hdrPack_eq st tl)

/-- Settles O15: the decoder's arm, then the operation cut off by its length, by its tag, and by neither. -/
theorem hdrUnpackReadsTheHeader : Obligations.HdrUnpackReadsTheHeader := by
  refine ⟨fun w hop => decode_of_opcode_fields (i := .hdrUnpack (F w 0 ++ F w 1)) hop ?_, fun n s hp =>
    ⟨fun hn => completesInError_of_raised (e := .lengthError) (hdrUnpack_of_short hn),
      fun hl ver st1 st0 tl1 tl0 hn h0 h1 h2 h3 h4 h5 => ⟨fun htag => ?_, fun htag => ?_⟩⟩⟩
  · simp only [Instr.fields, hiByte_append, loByte_append]
    rfl
  · exact completesInError_of_raised (e := .unsupportedServiceType)
      (hdrUnpack_of_unknown hp hn h0 h1 h2 h3 h4 h5 htag)
  · exact completesWith_of_unpacked (hdrUnpack_of_known hp hn h0 h1 h2 h3 h4 h5 htag)

/-- Settles O16: the bytes O14 gives are those O15 reads, and the two bytes of the tag put together are the tag. -/
theorem headerRoundTrip : Obligations.HeaderRoundTrip := by
  intro st tl n s
  obtain ⟨t, ht, ⟨-, -, hbyte, -⟩, -⟩ := hdrPackWritesTheHeader.2 st tl s
  refine ⟨t, ht, fun s' hs' hn hin => ?_⟩
  have hread (a : Nat) (ha : a < 6) := (hin a ha).trans (congrArg some (hbyte a))
  obtain ⟨hunknown, hknown⟩ := (hdrUnpackReadsTheHeader.2 n s' hs').2 _ _ _ _ _ _ hn (hread 0 (by decide)) (hread 1 (by decide))
    (hread 2 (by decide)) (hread 3 (by decide)) (hread 4 (by decide)) (hread 5 (by decide))
  have htag : ((st >>> 8).setWidth 8 ++ st.setWidth 8 : Half) = st := by
    rw [shiftRight_setWidth_eq_hiByte, setWidth_eq_loByte, append_hiByte_loByte]
  exact ⟨fun hmem => hknown (htag.symm ▸ hmem), fun hmem => hunknown (htag.symm ▸ hmem)⟩

end Sys2Proof.Proofs
end

section
/-! SUPPORT. What the two operations of the tail engine end in (42_tunnelling.md R121, R122), and the size byte under
either mask (R133). -/

namespace Sys2Proof.Machine

open Claims

/-- The bytes of a tail in the source's spelling (42_tunnelling.md R116 to R119). -/
def tailBytes (ds apci value : Byte) : List Byte :=
  [ds, apci >>> 2] ++ if ds = 1#8 then [(apci &&& 3#8) <<< 6 ||| (value &&& 1#8)] else [(apci &&& 3#8) <<< 6, value]

section pack
variable {ds apci : Byte} (value : Byte)

theorem supportedSize_eq_false (h1 : ds ≠ 1#8) (h2 : ds ≠ 2#8) : supportedSize ds = false :=
  decide_eq_false (not_or.2 ⟨h1, h2⟩)

/-- The tail of a supported size and a command code in range is its bytes written from the address on. -/
theorem writeTail_eq (hds : ds = 1#8 ∨ ds = 2#8) (hapci : apci ≤ 15#8) (out : Memory) {a : Nat} (ha : a + 3 < 22) :
    writeTail out a ds apci value = .ok (Memory.writeBytes out a (tailBytes ds apci value)) := by
  have hbyte : sizeByteOf ds = ds := sizeByteOf_eq (by rcases hds with rfl | rfl <;> decide)
  rcases hds with rfl | rfl
  · simp (disch := omega) [writeTail, tailBytes, Memory.writeBytes, hbyte, byteNOf_eq hapci, byteN1OfBool_eq]
  · simp (disch := omega) [writeTail, tailBytes, Memory.writeBytes, hbyte, byteNOf_eq hapci, byteN1OfByte_eq]

theorem tailPack_of_inRange (hds : ds = 1#8 ∨ ds = 2#8) (hapci : apci ≤ 15#8) : tailPack ds apci value =
    .ok (packed (Memory.writeBytes [] 0 (tailBytes ds apci value)) (if ds = 1#8 then 3#8 else 4#8)) := by
  have hsize : supportedSize ds = true := decide_eq_true hds
  simp [tailPack, hsize, BitVec.not_lt.2 hapci, writeTail_eq value hds hapci]

theorem tailPack_completesWith (s : State) (hds : ds = 1#8 ∨ ds = 2#8) (hapci : apci ≤ 15#8) :
    CompletesWith (.tailPack ds apci value) s (tailBytes ds apci value) {} := by
  refine completesWith_of_packed ?_ (tailPack_of_inRange value hds hapci)
  rcases hds with rfl | rfl <;> rfl

/-- The size is checked first. -/
theorem tailPack_of_badSize (h1 : ds ≠ 1#8) (h2 : ds ≠ 2#8) (apci : Byte) :
    tailPack ds apci value = .error (.raised .unsupportedDatapointSize) := by
  simp [tailPack, supportedSize_eq_false h1 h2]

theorem tailPack_of_badApci (hds : ds = 1#8 ∨ ds = 2#8) (hapci : 15#8 < apci) :
    tailPack ds apci value = .error (.raised .rangeError) := by
  have hsize : supportedSize ds = true := decide_eq_true hds
  simp [tailPack, hsize, hapci]

end pack

section unpack
variable {p : Params} {sb ds : Byte} (bN bN1 bN2 : Byte)

/-- The two parts of the command code, and the value where the size says it stands (42_tunnelling.md R132). -/
theorem tailUnpack_of_supported (hsb : dataSizeOf p sb = ds) (hds : ds = 1#8 ∨ ds = 2#8) :
    tailUnpack p sb bN bN1 bN2 = .ok (unpacked
      { r0 := ds, r1 := (bN &&& 3#8) <<< 2 ||| bN1 >>> 6, r2 := if ds = 1#8 then bN1 &&& 1#8 else bN2 }) := by
  have hsize : supportedSize ds = true := decide_eq_true hds
  simp [tailUnpack, hsb, hsize, apciOf_eq, boolValueOf_eq]

theorem tailUnpack_of_badSize (h1 : dataSizeOf p sb ≠ 1#8) (h2 : dataSizeOf p sb ≠ 2#8) :
    tailUnpack p sb bN bN1 bN2 = .error (.raised .unsupportedDatapointSize) := by
  simp [tailUnpack, supportedSize_eq_false h1 h2]

/-- Either mask keeps the size byte of a supported size (42_tunnelling.md R133). -/
theorem dataSizeOf_of_supported (hp : p.wellFormed = true) (hds : ds = 1#8 ∨ ds = 2#8) : dataSizeOf p ds = ds := by
  have hmask : p.dsDecodeMask = 0x0F#8 ∨ p.dsDecodeMask = 0xFF#8 := by
    simp only [Params.wellFormed, Bool.and_eq_true, Bool.or_eq_true, beq_iff_eq] at hp
    exact hp.2
  rcases hds with rfl | rfl <;> rcases hmask with h | h <;> simp [dataSizeOf, h]

end unpack

end Sys2Proof.Machine
end

section
/-! SUPPORT. What the frame assembler ends in (42_tunnelling.md R128), and what STATUS and the output bytes are after a
completion. -/

namespace Sys2Proof.Machine

open Claims

/-- The bytes of a frame between the header and the group address (42_tunnelling.md R115). -/
def middleBytes (ch seq mc : Byte) : List Byte :=
  [0x04#8, ch, seq, 0x00#8, mc, 0x00#8, 0xBC#8, 0xE0#8, 0x00#8, 0x00#8]

section treqPack
variable {main middle ds apci : Byte} (ch seq mc sub value : Byte)

/-- A frame is a header, the bytes between, a group address and a tail (42_tunnelling.md R129). -/
theorem frameBytes_eq (hds : ds = 1#8 ∨ ds = 2#8) : frameBytes ch seq mc main middle sub ds apci value =
    headerBytes Config.tunnellingRequestTag (frameLength ds) ++ middleBytes ch seq mc ++ [main <<< 3 ||| middle, sub]
      ++ tailBytes ds apci value := by
  rcases hds with rfl | rfl <;> rfl

theorem frameBytes_length (hds : ds = 1#8 ∨ ds = 2#8) :
    (20#8 + ds).toNat = (frameBytes ch seq mc main middle sub ds apci value).length := by
  rcases hds with rfl | rfl <;> rfl

theorem treqPack_of_inRange (hmain : main ≤ 31#8) (hmiddle : middle ≤ 7#8) (hds : ds = 1#8 ∨ ds = 2#8)
    (hapci : apci ≤ 15#8) : treqPack ch seq mc main middle sub ds apci value =
    .ok (packed (Memory.writeBytes [] 0 (frameBytes ch seq mc main middle sub ds apci value)) (20#8 + ds)) := by
  have hsize : supportedSize ds = true := decide_eq_true hds
  have hlen : (frameLength ds).setWidth 8 = 20#8 + ds := by rcases hds with rfl | rfl <;> rfl
  have hzero : hiByte 0x0000#16 = 0x00#8 ∧ loByte 0x0000#16 = 0x00#8 := ⟨rfl, rfl⟩
  simp [treqPack, BitVec.not_lt.2 hmain, BitVec.not_lt.2 hmiddle, hsize, BitVec.not_lt.2 hapci, writeHeader_eq,
    writeTail_eq value hds hapci, hlen, frameBytes_eq ch seq mc sub value hds, gaByte0_eq hmiddle, headerBytes,
    middleBytes, Memory.writeBytes, hzero]

theorem treqPack_of_badAddress (h : 31#8 < main ∨ 7#8 < middle) (ds apci : Byte) :
    treqPack ch seq mc main middle sub ds apci value = .error (.raised .rangeError) :=
  raiseIf_raiseIf_of_or (h.imp (decide_eq_true ·) (decide_eq_true ·))

theorem treqPack_of_badSize (hmain : main ≤ 31#8) (hmiddle : middle ≤ 7#8) (h1 : ds ≠ 1#8) (h2 : ds ≠ 2#8)
    (apci : Byte) : treqPack ch seq mc main middle sub ds apci value = .error (.raised .unsupportedDatapointSize) := by
  simp [treqPack, BitVec.not_lt.2 hmain, BitVec.not_lt.2 hmiddle, supportedSize_eq_false h1 h2]

theorem treqPack_of_badApci (hmain : main ≤ 31#8) (hmiddle : middle ≤ 7#8) (hds : ds = 1#8 ∨ ds = 2#8)
    (hapci : 15#8 < apci) : treqPack ch seq mc main middle sub ds apci value = .error (.raised .rangeError) := by
  have hsize : supportedSize ds = true := decide_eq_true hds
  simp [treqPack, BitVec.not_lt.2 hmain, BitVec.not_lt.2 hmiddle, hsize, hapci]

end treqPack

/-! ### What a completion answers -/

section answers
variable {i : Instr} {s : State}

theorem statusOf_of_completesWith {bs : List Byte} {rs : Results} (h : CompletesWith i s bs rs) :
    statusOf (exec i s) = some 0x00#8 := by
  obtain ⟨t, ht, ⟨hstatus, -⟩, -⟩ := h
  rw [ht, statusOf, hstatus]

theorem outputOf_of_completesWith {bs : List Byte} {rs : Results} (h : CompletesWith i s bs rs) :
    outputOf (exec i s) = bs := by
  obtain ⟨t, ht, ⟨-, hlen, hbyte, -⟩, -⟩ := h
  rw [ht]
  refine List.ext_getElem (by simp [outputOf, Response.outBytes, hlen]) fun k _ hk => ?_
  simp [outputOf, Response.outBytes, hbyte, hk]

theorem statusOf_of_completesInError {c : Byte} (h : CompletesInError i s c) : statusOf (exec i s) = some c := by
  obtain ⟨t, ht, ⟨hstatus, -⟩, -⟩ := h
  rw [ht, statusOf, hstatus]

end answers

end Sys2Proof.Machine
end

section
/-! SUPPORT. What the frame parser ends in, check by check (42_tunnelling.md R130, R131), and what it makes of a frame
the assembler built (R133, R135). -/

namespace Sys2Proof.Machine

open Claims

/-- The last part of the parser, with every check passed: the reads of the fields and the results (42_tunnelling.md
R131). -/
def treqFields (p : Params) (inBuf : Memory) (ds : Byte) : Op Response := do
  let ch ← memRead1 p inBuf 7
  let seq ← memRead1 p inBuf 8
  let mc ← memRead1 p inBuf 10
  let g ← memRead2 p inBuf 16
  let bN ← memRead1 p inBuf 19
  let bN1 ← memRead1 p inBuf 20
  let value ← if ds = 1#8 then (.ok (boolValueOf bN1) : Op Byte) else memRead1 p inBuf 21
  .ok (unpacked ⟨ch, seq, mc, gaMain (hiByte g), gaMiddle (hiByte g), loByte g, ds, apciOf bN bN1, value⟩)

/-- The parser from its third length check on, with tag and total length accepted (42_tunnelling.md R131). -/
def treqBody (p : Params) (inBuf : Memory) (n : Half) : Op Response := do
  raiseIf (decide (n < 19#16)) .lengthError
  let sizeByte ← memRead1 p inBuf 18
  raiseIf (!supportedSize (dataSizeOf p sizeByte)) .unsupportedDatapointSize
  raiseIf (decide (n ≠ frameLength (dataSizeOf p sizeByte))) .lengthError
  treqFields p inBuf (dataSizeOf p sizeByte)

theorem and_one_of_le {x : Byte} (h : x ≤ 1#8) : x &&& 1#8 = x :=
  BitVec.eq_of_toNat_eq (by simpa using Nat.mod_eq_of_lt (Nat.lt_succ_of_le h))

/-- Either mask keeps a block admitted (70_reset_and_hazards.md R174). -/
theorem Params.wellFormed_withMask {p : Params} (hp : p.wellFormed = true) {mask : Byte}
    (hmask : mask = 0x0F#8 ∨ mask = 0xFF#8) : { p with dsDecodeMask := mask }.wellFormed = true := by
  simp only [Params.wellFormed, Bool.and_eq_true, Bool.or_eq_true, beq_iff_eq] at hp ⊢
  exact ⟨hp.1, hmask⟩

/-- TREQ_UNPACK reads no byte of 42_tunnelling.md R130's list. -/
theorem treqUnpack_congr_unlisted (p : Params) {m m' : Memory} (n : Half)
    (h : ∀ a, a ∉ [0, 1, 6, 9, 11, 12, 13, 14, 15] → Memory.get inBlank m' a = Memory.get inBlank m a) :
    treqUnpack p m' n = treqUnpack p m n := by
  have hread (a : Nat) (ha : a ∉ [0, 1, 6, 9, 11, 12, 13, 14, 15]) := memRead1_congr p (h a ha)
  simp only [treqUnpack, memRead2, hread 2 (by decide), hread (2 + 1) (by decide), hread 4 (by decide),
    hread (4 + 1) (by decide), hread 18 (by decide), hread 7 (by decide), hread 8 (by decide), hread 10 (by decide),
    hread 16 (by decide), hread (16 + 1) (by decide), hread 19 (by decide), hread 20 (by decide), hread 21 (by decide)]

section treqUnpack
variable {p : Params} {m : Memory} {n : Half}

/-- TREQ_UNPACK is the checks of the header, then the rest. -/
theorem treqUnpack_eq : treqUnpack p m n = (do
    raiseIf (decide (n < 6#16)) .lengthError
    let st ← memRead2 p m 2
    raiseIf (!p.knownTags.contains st) .unsupportedServiceType
    raiseIf (decide (st ≠ Config.tunnellingRequestTag)) .unsupportedServiceType
    let tl ← memRead2 p m 4
    raiseIf (decide (tl ≠ n)) .lengthError
    treqBody p m n) := rfl

/-- The length check comes before every read. -/
theorem treqUnpack_of_short (hn : n < 6#16) : treqUnpack p m n = .error (.raised .lengthError) := by
  simp [treqUnpack_eq, hn]

theorem treqBody_of_short (hn : n < 19#16) : treqBody p m n = .error (.raised .lengthError) := by
  simp [treqBody, hn]

section admitted
variable (hp : p.wellFormed = true)
include hp

/-- In an admitted block a written byte below 22 is read as it stands. -/
theorem memRead1_below {a : Nat} {b : Byte} (hb : Memory.get inBlank m a = some b) (ha : a < 22) :
    memRead1 p m a = .ok b :=
  memRead1_of_written p m a b (ha.trans_le (Params.inCap_of_wellFormed hp)) hb

theorem memRead2_below {a : Nat} {hi lo : Byte} (hhi : Memory.get inBlank m a = some hi)
    (hlo : Memory.get inBlank m (a + 1) = some lo) (ha : a + 1 < 22) : memRead2 p m a = .ok (hi ++ lo) :=
  memRead2_of_written p m a hi lo (ha.trans_le (Params.inCap_of_wellFormed hp)) hhi hlo

/-- A tag other than 0x0420 fails the first check of the tag or the second (42_tunnelling.md R131). -/
theorem treqUnpack_of_otherTag {st1 st0 : Byte} (hn : 6#16 ≤ n) (h2 : Memory.get inBlank m 2 = some st1)
    (h3 : Memory.get inBlank m 3 = some st0) (htag : (st1 ++ st0 : Half) ≠ 0x0420#16) :
    treqUnpack p m n = .error (.raised .unsupportedServiceType) := by
  simp only [treqUnpack_eq, BitVec.not_lt.2 hn, memRead2_below hp h2 h3 (by decide), decide_false, raiseIf_false,
    Op.ok_bind]
  exact raiseIf_raiseIf_of_or (.inr (decide_eq_true htag))

/-- With the tag 0x0420 the total length is compared with the declared one. -/
theorem treqUnpack_of_tag {tl1 tl0 : Byte} (hn : 6#16 ≤ n) (h2 : Memory.get inBlank m 2 = some 0x04#8)
    (h3 : Memory.get inBlank m 3 = some 0x20#8) (h4 : Memory.get inBlank m 4 = some tl1)
    (h5 : Memory.get inBlank m 5 = some tl0) : treqUnpack p m n =
    (raiseIf (decide ((tl1 ++ tl0 : Half) ≠ n)) .lengthError >>= fun _ => treqBody p m n) := by
  simp [treqUnpack_eq, BitVec.not_lt.2 hn, memRead2_below hp h2 h3, memRead2_below hp h4 h5,
    Params.tag_mem_of_wellFormed hp, Config.tunnellingRequestTag]

/-- With the total length the declared one and the size byte inside it, the masked size is checked, then the length
against it. -/
theorem treqUnpack_of_sizeByte {tl1 tl0 sb ds : Byte} (h2 : Memory.get inBlank m 2 = some 0x04#8)
    (h3 : Memory.get inBlank m 3 = some 0x20#8) (h4 : Memory.get inBlank m 4 = some tl1)
    (h5 : Memory.get inBlank m 5 = some tl0) (htl : (tl1 ++ tl0 : Half) = n) (hn : 19#16 ≤ n)
    (h18 : Memory.get inBlank m 18 = some sb) (hsb : dataSizeOf p sb = ds) : treqUnpack p m n =
    (raiseIf (!supportedSize ds) .unsupportedDatapointSize >>= fun _ =>
      raiseIf (decide (n ≠ frameLength ds)) .lengthError >>= fun _ => treqFields p m ds) := by
  rw [treqUnpack_of_tag hp (BitVec.le_trans (by decide) hn) h2 h3 h4 h5]
  simp [htl, treqBody, BitVec.not_lt.2 hn, memRead1_below hp h18, hsb]

/-- With the fields written they are the results. Byte 21 is read only for data size 2. -/
theorem treqFields_of_written {ds ch seq mc g0 g1 bN bN1 v : Byte} (h7 : Memory.get inBlank m 7 = some ch)
    (h8 : Memory.get inBlank m 8 = some seq) (h10 : Memory.get inBlank m 10 = some mc)
    (h16 : Memory.get inBlank m 16 = some g0) (h17 : Memory.get inBlank m 17 = some g1)
    (h19 : Memory.get inBlank m 19 = some bN) (h20 : Memory.get inBlank m 20 = some bN1)
    (h21 : ds ≠ 1#8 → Memory.get inBlank m 21 = some v) : treqFields p m ds =
    .ok (unpacked ⟨ch, seq, mc, g0 >>> 3, g0 &&& 7#8, g1, ds, (bN &&& 3#8) <<< 2 ||| bN1 >>> 6,
      if ds = 1#8 then bN1 &&& 1#8 else v⟩) := by
  simp only [treqFields, memRead1_below hp h7 (by decide), memRead1_below hp h8 (by decide),
    memRead1_below hp h10 (by decide), memRead2_below hp h16 h17 (by decide), memRead1_below hp h19 (by decide),
    memRead1_below hp h20 (by decide), Op.ok_bind, hiByte_append, loByte_append, gaMain_eq, gaMiddle_eq, apciOf_eq,
    boolValueOf_eq]
  by_cases hds : ds = 1#8
  · simp [hds]
  · simp [hds, memRead1_below hp (h21 hds)]

/-- A frame the assembler builds is taken apart into the operands it was built from, and of the value of a boolean its
low bit (42_tunnelling.md R133, R135). -/
theorem treqUnpack_of_frame {ch seq mc main middle sub ds apci value : Byte} (hmain : main ≤ 31#8)
    (hmiddle : middle ≤ 7#8) (hds : ds = 1#8 ∨ ds = 2#8) (hapci : apci ≤ 15#8)
    (hin : ∀ a, a < (20#8 + ds).toNat →
      Memory.get inBlank m a = some ((frameBytes ch seq mc main middle sub ds apci value).getD a 0#8)) :
    treqUnpack p m ((20#8 + ds).setWidth 16) = .ok (unpacked
      ⟨ch, seq, mc, main, middle, sub, ds, apci, if ds = 1#8 then value &&& 1#8 else value⟩) := by
  obtain ⟨hshort, hlen, hlong, htl⟩ : 21 ≤ (20#8 + ds).toNat ∧ (20#8 + ds).setWidth 16 = frameLength ds
      ∧ 19#16 ≤ frameLength ds ∧ (0x00#8 ++ (20#8 + ds) : Half) = frameLength ds := by
    rcases hds with rfl | rfl <;> decide
  have hread (a : Nat) (ha : a < 21) := hin a (ha.trans_le hshort)
  have hvalue (h : ds ≠ 1#8) : Memory.get inBlank m 21 = some value := by
    obtain rfl := hds.resolve_left h
    exact hin 21 (by decide)
  have hsize : supportedSize ds = true := decide_eq_true hds
  rw [hlen, treqUnpack_of_sizeByte (ds := ds) hp (hread 2 (by decide)) (hread 3 (by decide)) (hread 4 (by decide))
      (hread 5 (by decide)) htl hlong (hread 18 (by decide)) (dataSizeOf_of_supported hp hds),
    treqFields_of_written hp (hread 7 (by decide)) (hread 8 (by decide)) (hread 10 (by decide)) (hread 16 (by decide))
      (hread 17 (by decide)) (hread 19 (by decide)) (hread 20 (by decide)) hvalue]
  simp only [hsize, Bool.not_true, ne_eq, not_true_eq_false, decide_false, raiseIf_false, Op.ok_bind]
  rcases hds with rfl | rfl
  · simp [frameBytes, shift3_or_high hmain hmiddle, shift3_or_low hmiddle, apci_of_bool_tail hapci, bool_of_bool_tail]
  · simp [frameBytes, shift3_or_high hmain hmiddle, shift3_or_low hmiddle, apci_of_byte_tail hapci]

end admitted
end treqUnpack

end Sys2Proof.Machine
end

section
/-! SUPPORT. The statements of the tail engine and the frame (42_tunnelling.md), settled. -/

namespace Sys2Proof.Proofs

open Sys2Proof.Machine Sys2Proof.Claims

/-- Settles O17: the decoder's arm, then the operation with both checks passed, for either size, and with one failed. -/
theorem tailPackPacksOrRaises : Obligations.TailPackPacksOrRaises := by
  refine ⟨fun w hop => decode_of_opcode_fields (i := .tailPack (F w 0) (F w 1) (F w 2)) hop rfl,
    fun ds apci value s => ⟨?_, ?_, fun h1 h2 => ?_, fun hds hapci => ?_⟩⟩
  · rintro rfl hapci
    exact tailPack_completesWith value s (.inl rfl) hapci
  · rintro rfl hapci
    exact tailPack_completesWith value s (.inr rfl) hapci
  · exact completesInError_of_raised (e := .unsupportedDatapointSize) (tailPack_of_badSize value h1 h2 apci)
  · exact completesInError_of_raised (e := .rangeError) (tailPack_of_badApci value hds hapci)

/-- Settles O18: the decoder's arm, then the operation for each masked size. -/
theorem tailUnpackUnpacksOrRaises : Obligations.TailUnpackUnpacksOrRaises :=
  ⟨fun w hop => decode_of_opcode_fields (i := .tailUnpack (F w 0) (F w 1) (F w 2) (F w 3)) hop rfl,
    fun _ bN bN1 bN2 _ =>
      ⟨fun h => completesWith_of_unpacked (tailUnpack_of_supported bN bN1 bN2 h (.inl rfl)),
        fun h => completesWith_of_unpacked (tailUnpack_of_supported bN bN1 bN2 h (.inr rfl)),
        fun h1 h2 => completesInError_of_raised (e := .unsupportedDatapointSize)
          (tailUnpack_of_badSize bN bN1 bN2 h1 h2)⟩⟩

/-- Settles O19: either mask keeps the size byte O17 writes, so that O18 takes the tail apart where O17 put it
together. -/
theorem tailRoundTrip : Obligations.TailRoundTrip := by
  intro ds apci value s s' hs' hds hapci
  have hmask : ds &&& s'.params.dsDecodeMask = ds := dataSizeOf_of_supported hs' hds
  rcases hds with rfl | rfl
  · obtain ⟨t, ht, ⟨hstatus, -, hbyte, -⟩, -⟩ := (tailPackPacksOrRaises.2 1#8 apci value s).1 rfl hapci
    have h := (tailUnpackUnpacksOrRaises.2 1#8 (apci >>> 2) ((apci &&& 3#8) <<< 6 ||| (value &&& 1#8)) 0#8 s').1 hmask
    rw [apci_of_bool_tail hapci, bool_of_bool_tail] at h
    exact ⟨t, ht, hstatus, by rw [hbyte, hbyte, hbyte]; exact h⟩
  · obtain ⟨t, ht, ⟨hstatus, -, hbyte, -⟩, -⟩ := (tailPackPacksOrRaises.2 2#8 apci value s).2.1 rfl hapci
    have h := (tailUnpackUnpacksOrRaises.2 2#8 (apci >>> 2) ((apci &&& 3#8) <<< 6) value s').2.1 hmask
    rw [apci_of_byte_tail hapci] at h
    exact ⟨t, ht, hstatus, by rw [hbyte, hbyte, hbyte, hbyte]; exact h⟩

/-- Settles O20: the decoder's arm, then the operation with the four checks passed and with each failed. -/
theorem treqPackBuildsTheFrame : Obligations.TreqPackBuildsTheFrame := by
  refine ⟨fun w hop => decode_of_opcode_fields
    (i := .treqPack (F w 0) (F w 1) (F w 2) (F w 3) (F w 4) (F w 5) (F w 6) (F w 7) (F w 8)) hop rfl,
    fun ch seq mc main middle sub ds apci value s => ⟨fun hmain hmiddle hds hapci => ?_, fun h => ?_,
      fun hmain hmiddle h1 h2 => ?_, fun hmain hmiddle hds hapci => ?_⟩⟩
  · exact completesWith_of_packed (frameBytes_length ch seq mc sub value hds)
      (treqPack_of_inRange ch seq mc sub value hmain hmiddle hds hapci)
  · exact completesInError_of_raised (e := .rangeError) (treqPack_of_badAddress ch seq mc sub value h ds apci)
  · exact completesInError_of_raised (e := .unsupportedDatapointSize)
      (treqPack_of_badSize ch seq mc sub value hmain hmiddle h1 h2 apci)
  · exact completesInError_of_raised (e := .rangeError)
      (treqPack_of_badApci ch seq mc sub value hmain hmiddle hds hapci)

/-- Settles O21: the first check that fails is the frame's own and that of the part that holds it; with none failed, the
frame's bytes are those of its parts. -/
theorem treqPackIsAComposition : Obligations.TreqPackIsAComposition := by
  rintro ch seq mc main middle sub ds apci value s _ _ _ _ rfl rfl rfl rfl
  obtain ⟨hframe, hframeAddress, hframeSize, hframeApci⟩ :=
    treqPackBuildsTheFrame.2 ch seq mc main middle sub ds apci value s
  obtain ⟨-, -, htailSize, htailApci⟩ := tailPackPacksOrRaises.2 ds apci value s
  obtain ⟨haddress, haddressError⟩ := gaPackWritesTheWireBytes.2 main middle sub s
  by_cases hga : 31#8 < main ∨ 7#8 < middle
  · have ha := statusOf_of_completesInError (haddressError hga)
    have hf := statusOf_of_completesInError (hframeAddress hga)
    simp [ha, hf]
  obtain ⟨hmain, hmiddle⟩ : main ≤ 31#8 ∧ middle ≤ 7#8 := by simpa using hga
  have ha := haddress hmain hmiddle
  by_cases hds : ds = 1#8 ∨ ds = 2#8
  · by_cases hapci : apci ≤ 15#8
    · have ht := tailPack_completesWith value s hds hapci
      have hh := completesWith_of_packed (s := s) (i := .hdrPack 0x0420#16 (20#16 + ds.setWidth 16)) rfl
        (hdrPack_eq _ _)
      have hf := hframe hmain hmiddle hds hapci
      rw [statusOf_of_completesWith ha, statusOf_of_completesWith ht, statusOf_of_completesWith hf,
        outputOf_of_completesWith ha, outputOf_of_completesWith ht, outputOf_of_completesWith hf,
        outputOf_of_completesWith hh, frameBytes_eq ch seq mc sub value hds]
      exact ⟨fun _ _ => ⟨rfl, rfl⟩, fun h => absurd rfl h, fun _ h => absurd rfl h⟩
    · have hapci := BitVec.not_le.1 hapci
      have ht := statusOf_of_completesInError (htailApci hds hapci)
      have hf := statusOf_of_completesInError (hframeApci hmain hmiddle hds hapci)
      simp [ht, hf, statusOf_of_completesWith ha]
  · obtain ⟨h1, h2⟩ := not_or.1 hds
    have ht := statusOf_of_completesInError (htailSize h1 h2)
    have hf := statusOf_of_completesInError (hframeSize hmain hmiddle h1 h2)
    simp [ht, hf, statusOf_of_completesWith ha]

/-- Settles O22: the decoder's arm, then the checks in their order, each on the bytes read before it. -/
theorem treqUnpackParsesTheFrame : Obligations.TreqUnpackParsesTheFrame := by
  refine ⟨fun w hop => decode_of_opcode_fields (i := .treqUnpack (F w 0 ++ F w 1)) hop ?_, fun n s hp =>
    ⟨fun hn => completesInError_of_raised (e := .lengthError) (treqUnpack_of_short hn),
      fun st1 st0 hn h2 h3 htag => completesInError_of_raised (e := .unsupportedServiceType)
        (treqUnpack_of_otherTag hp hn h2 h3 htag), fun tl1 tl0 hn h2 h3 h4 h5 => ?_⟩⟩
  · simp only [Instr.fields, hiByte_append, loByte_append]
    rfl
  have htagged := treqUnpack_of_tag hp hn h2 h3 h4 h5
  refine ⟨fun htl => ?_, fun htl hshort => ?_, fun sb ds htl hlong h18 hds => ?_⟩
  · exact completesInError_of_raised (e := .lengthError) (htagged.trans (by simp [htl]))
  · exact completesInError_of_raised (e := .lengthError) (htagged.trans (by simp [htl, treqBody_of_short hshort]))
  have hsized := treqUnpack_of_sizeByte hp h2 h3 h4 h5 htl hlong h18 hds.symm
  refine ⟨fun h1 h2 => ?_, fun hds hlen => ?_,
    fun ch seq mc g0 g1 bN bN1 hlen h7 h8 h10 h16 h17 h19 h20 => ⟨?_, ?_⟩⟩
  · exact completesInError_of_raised (e := .unsupportedDatapointSize)
      (hsized.trans (by simp [supportedSize_eq_false h1 h2]))
  · exact completesInError_of_raised (e := .lengthError)
      (hsized.trans (by simp [supportedSize, hds, frameLength, hlen]))
  · rintro rfl
    exact completesWith_of_unpacked (hsized.trans (by
      simp [supportedSize, frameLength, hlen, treqFields_of_written (v := 0#8) hp h7 h8 h10 h16 h17 h19 h20 nofun]))
  · rintro v rfl h21
    exact completesWith_of_unpacked (hsized.trans (by
      simp [supportedSize, frameLength, hlen, treqFields_of_written hp h7 h8 h10 h16 h17 h19 h20 fun _ => h21]))

/-- Settles O23: TREQ_UNPACK is the same operation on inputs that agree outside R130's list. -/
theorem treqUnpackIgnoresTheFixedBytes : Obligations.TreqUnpackIgnoresTheFixedBytes := by
  intro n s s' t hparams hin h hd
  refine exec_defined_congr (i := .treqUnpack n) ?_ h hd
  rw [hparams]
  exact treqUnpack_congr_unlisted s.params n hin

/-- Settles O24: the frame built is read back, and a value of 0 or 1 is its own low bit. -/
theorem frameRoundTrip : Obligations.FrameRoundTrip := by
  intro ch seq mc main middle sub ds apci value s hmain hmiddle hds hapci hvalue
  refine ⟨_, exec_of_ok (treqPack_of_inRange ch seq mc sub value hmain hmiddle hds hapci), rfl, fun s' hp hin => ?_⟩
  have h := treqUnpack_of_frame hp hmain hmiddle hds hapci fun a ha =>
    (hin a ha).trans (congrArg some (packed_writeBytes_outByte _ _ a))
  have hbit : (if ds = 1#8 then value &&& 1#8 else value) = value := by
    split
    · exact and_one_of_le (hvalue ‹ds = 1#8›)
    · rfl
  rw [hbit] at h
  exact completesWith_of_unpacked h

/-- Settles O32: a frame is built only from operands in range, and either mask admits the block and so the parse. -/
theorem bothMasksDecodeTheFramesBuilt : Obligations.BothMasksDecodeTheFramesBuilt := by
  intro ch seq mc main middle sub ds apci value s t ht hstatus s' hp hin
  have hrange := ((packSucceedsExactlyInRange s).2.2.2 ch seq mc main middle sub ds apci value).1
    (by rw [ht, statusOf, hstatus])
  obtain ⟨⟨hmain, hmiddle⟩, hds, hapci⟩ : (main ≤ 31#8 ∧ middle ≤ 7#8) ∧ (ds = 1#8 ∨ ds = 2#8) ∧ apci ≤ 15#8 := by
    simpa [Instr.wellFormed, gaInRange, tailInRange] using hrange
  have hok := exec_of_ok (i := .treqPack ch seq mc main middle sub ds apci value) (s := s)
    (treqPack_of_inRange ch seq mc sub value hmain hmiddle hds hapci)
  obtain rfl := Host.Outcome.next.inj (ht.symm.trans hok)
  have hparse {mask : Byte} (hmask : mask = 0x0F#8 ∨ mask = 0xFF#8) :=
    treqUnpack_of_frame (Params.wellFormed_withMask hp hmask) hmain hmiddle hds hapci fun a ha =>
      (hin a ha).trans (congrArg some (packed_writeBytes_outByte _ _ a))
  exact ⟨_, _, exec_of_ok (hparse (.inl rfl)), exec_of_ok (hparse (.inr rfl)), rfl, rfl⟩

end Sys2Proof.Proofs
end

section
/-! SUPPORT. The codes each operation raises (60_exceptions.md R146), and what a completion leaves to be read (R145). -/

namespace Sys2Proof.Machine

open Claims

/-! ### The codes an operation raises -/

/-- The operation ends well with STATUS 0x00, or raises one of these codes, or stops without raising any. -/
def Op.RaisesOnly (codes : List Byte) : Op Response → Prop :=
  Op.Ends (fun r => r.status = statusOk) fun x => ∀ e, x = .raised e → e.code ∈ codes

section raises
variable {codes : List Byte}

theorem Op.raisesOnly_ok {r : Response} (h : r.status = statusOk) : Op.RaisesOnly codes (.ok r) := h

/-- A check raises its own code. -/
theorem Op.RaisesOnly.check {f : Unit → Op Response} {c : Bool} {e : Error} (he : e.code ∈ codes)
    (hf : (f ()).RaisesOnly codes) : Op.RaisesOnly codes (raiseIf c e >>= f) := by
  refine Op.ends_raiseIf_seq ?_ hf
  rintro _ ⟨rfl⟩
  exact he

/-- A read raises nothing: an unwritten byte and an address outside IN are no error codes (60_exceptions.md R152). -/
theorem Op.RaisesOnly.read1 {p : Params} {m : Memory} {a : Nat} {f : Byte → Op Response}
    (hf : ∀ b, (f b).RaisesOnly codes) : Op.RaisesOnly codes (memRead1 p m a >>= f) := by
  rcases memRead1_cases p m a with ⟨-, h⟩ | ⟨-, -, h⟩ | ⟨b, -, -, h⟩ <;> rw [h]
  · exact nofun
  · exact nofun
  · exact hf b

theorem Op.RaisesOnly.read2 {p : Params} {m : Memory} {a : Nat} {f : Half → Op Response}
    (hf : ∀ v, (f v).RaisesOnly codes) : Op.RaisesOnly codes (memRead2 p m a >>= f) := by
  rw [memRead2, bind_assoc]
  refine .read1 fun hi => ?_
  rw [bind_assoc]
  exact .read1 fun lo => hf _

/-- An operation that can only end well raises nothing. -/
theorem Op.raisesOnly_of_succeeds {o : Op Response} (h : Op.Ends (fun r => r.status = statusOk) (fun _ => False) o) :
    o.RaisesOnly codes := by
  cases o with
  | ok r => exact h
  | error x => exact h.elim

/-- A defined completion has one of the codes its operation raises, where it is no success. -/
theorem complete_status {o : Op Response} {s t : State} (ho : o.RaisesOnly codes) (h : complete o s = .next t)
    (hd : Defined s t) : t.resp.status = statusOk ∨ t.resp.status ∈ codes := by
  obtain ⟨rfl | ⟨e, rfl, hresp⟩, -⟩ := complete_defined h hd
  · exact .inl ho
  · exact .inr (hresp ▸ ho e rfl)

end raises

section each
variable (p : Params) (m : Memory)

theorem gaPack_raisesOnly (main middle sub : Byte) : (gaPack main middle sub).RaisesOnly [0x02#8] :=
  .check (by decide) <| .check (by decide) <| Op.raisesOnly_of_succeeds (by simp)

theorem iaPack_raisesOnly (area line device : Byte) : (iaPack area line device).RaisesOnly [0x02#8] :=
  .check (by decide) <| .check (by decide) <| Op.raisesOnly_of_succeeds (by simp)

theorem hdrPack_raisesOnly (st tl : Half) : (hdrPack st tl).RaisesOnly [] :=
  Op.raisesOnly_of_succeeds (by simp [hdrPack, writeHeader])

theorem tailPack_raisesOnly (ds apci value : Byte) : (tailPack ds apci value).RaisesOnly [0x05#8, 0x02#8] :=
  .check (by decide) <| .check (by decide) <| Op.raisesOnly_of_succeeds (by simp [writeTail])

theorem tailUnpack_raisesOnly (sb bN bN1 bN2 : Byte) : (tailUnpack p sb bN bN1 bN2).RaisesOnly [0x05#8] :=
  .check (by decide) (Op.raisesOnly_ok rfl)

theorem treqPack_raisesOnly (ch seq mc main middle sub ds apci value : Byte) :
    (treqPack ch seq mc main middle sub ds apci value).RaisesOnly [0x02#8, 0x05#8] :=
  .check (by decide) <| .check (by decide) <| .check (by decide) <| .check (by decide) <|
    Op.raisesOnly_of_succeeds (by simp [writeHeader, writeTail])

theorem hdrUnpack_raisesOnly (n : Half) : (hdrUnpack p m n).RaisesOnly [0x03#8, 0x04#8] :=
  .check (by decide) <| .read1 fun _ => .read1 fun _ => .read2 fun _ => .read2 fun _ =>
    .check (by decide) (Op.raisesOnly_ok rfl)

/-- The checks of 42_tunnelling.md R131 between its reads. -/
theorem treqUnpack_raisesOnly (n : Half) : (treqUnpack p m n).RaisesOnly [0x03#8, 0x04#8, 0x05#8] := by
  refine .check (by decide) <| .read2 fun st => .check (by decide) <| .check (by decide) <|
    .read2 fun tl => .check (by decide) <| .check (by decide) <| .read1 fun sb => .check (by decide) <|
    .check (by decide) <| .read1 fun ch => .read1 fun seq => .read1 fun mc => .read2 fun g => .read1 fun bN =>
    .read1 fun bN1 => ?_
  by_cases hds : dataSizeOf p sb = 1#8
  · rw [if_pos hds]
    exact Op.raisesOnly_ok rfl
  · rw [if_neg hds]
    exact .read1 fun _ => Op.raisesOnly_ok rfl

/-- Every operation raises the codes of its row of 60_exceptions.md R146 and no other. -/
theorem opOf_raisesOnly (i : Instr) : (opOf i p m).RaisesOnly (canRaise i) := by
  cases i with
  | gaPack main middle sub => exact gaPack_raisesOnly main middle sub
  | gaUnpack byte0 byte1 => exact Op.raisesOnly_ok rfl
  | iaPack area line device => exact iaPack_raisesOnly area line device
  | iaUnpack byte0 byte1 => exact Op.raisesOnly_ok rfl
  | hdrPack st tl => exact hdrPack_raisesOnly st tl
  | hdrUnpack n => exact hdrUnpack_raisesOnly p m n
  | tailPack ds apci value => exact tailPack_raisesOnly ds apci value
  | tailUnpack sb bN bN1 bN2 => exact tailUnpack_raisesOnly p sb bN bN1 bN2
  | treqPack ch seq mc main middle sub ds apci value => exact treqPack_raisesOnly ch seq mc main middle sub ds apci value
  | treqUnpack n => exact treqUnpack_raisesOnly p m n

end each

/-- No row of 60_exceptions.md R146 lists IllegalOperation. -/
theorem illegalOperation_not_mem_canRaise (i : Instr) : Error.illegalOperation.code ∉ canRaise i := by
  cases i <;> simp [canRaise, Error.code]

/-! ### What can be read again -/

/-- A completion keeps CMD, IN and the parameters, and its response is valid. -/
theorem unitStep_keeps {s t : State} (h : unitStep s = .next t) :
    t.params = s.params ∧ t.cmd = s.cmd ∧ t.inBuf = s.inBuf ∧ t.respValid = true := by
  rw [unitStep_eq_complete] at h
  rcases complete_next h with ht | ht <;> rw [ht] <;> exact ⟨rfl, rfl, rfl, rfl⟩

theorem afterError_eq_true {s : State} : s.afterError = true ↔ s.respValid = true ∧ s.resp.status ≠ statusOk := by
  simp [State.afterError]

theorem afterError_eq_false {s : State} : s.afterError = false ↔ s.respValid = false ∨ s.resp.status = statusOk := by
  simp [State.afterError, ← Bool.not_eq_true, imp_iff_not_or]

/-- Outside IN nothing can be read again. -/
theorem readAgain_outside {s : State} {a : Nat} (ha : s.params.inCap ≤ a) : s.readAgain (.inByte a) = none := by
  simp [State.readAgain, ha]

end Sys2Proof.Machine
end

section
/-! SUPPORT. The statements of the exceptions (60_exceptions.md), settled. -/

namespace Sys2Proof.Proofs

open Sys2Proof.Machine Sys2Proof.Claims

/-- Settles O26: each operation's checks raise the codes of its row, and IllegalOperation, in no row, is a reserved
opcode's alone. -/
theorem eachOperationRaisesOnlyItsCodes : Obligations.EachOperationRaisesOnlyItsCodes := by
  have hrow (i : Instr) (s t : State) (h : exec i s = .next t) (hd : Defined s t) :
      t.resp.status = statusOk ∨ t.resp.status ∈ canRaise i :=
    complete_status (opOf_raisesOnly s.params s.inBuf i) (exec_eq_complete i s ▸ h) hd
  refine ⟨hrow, fun s t h hd => ?_⟩
  cases hop : opcodes.contains (OP s.cmd) with
  | false =>
    obtain rfl := Host.Outcome.next.inj (h.symm.trans (unitStep_of_reserved (not_mem_opcodes_of_contains hop)))
    exact iff_of_true rfl rfl
  | true =>
    obtain ⟨i, hi⟩ := decode_of_opcode_mem (List.contains_iff_mem.1 hop)
    refine iff_of_false (fun hillegal => ?_) nofun
    rcases hrow i s t ((unitStep_of_decode hi).symm.trans h) hd with hstatus | hstatus <;> rw [hillegal] at hstatus
    · exact Error.code_ne_statusOk .illegalOperation hstatus
    · exact illegalOperation_not_mem_canRaise i hstatus

/-- Settles O53: a completion keeps what the view shows, and the view is there exactly after an error. -/
theorem commandAndInputCanBeReadAgain : Obligations.CommandAndInputCanBeReadAgain := by
  refine ⟨fun s t h => ?_, fun s =>
    ⟨fun o hs => readAgain_none (afterError_eq_false.2 hs) o, fun a => readAgain_outside⟩⟩
  obtain ⟨hparams, hcmd, hin, hvalid⟩ := unitStep_keeps h
  have hbyte (a : Nat) : t.inByte a = s.inByte a := by simp only [State.inByte, hin]
  refine ⟨hcmd, hbyte, fun hstatus => ?_⟩
  have herror : t.afterError = true := afterError_eq_true.2 ⟨hvalid, hstatus⟩
  exact ⟨hcmd ▸ readAgain_command herror, fun a ha => hbyte a ▸ readAgain_inByte herror (hparams ▸ ha)⟩

end Sys2Proof.Proofs
end

section
/-! SUPPORT. The host's waits before a completion, and the unit's turn when nothing is pending
(70_reset_and_hazards.md R171, R178, R179). -/

namespace Sys2Proof.Machine

/-! ### The idle unit -/

/-- Where nothing is pending the unit's turn is used up and changes nothing else (60_exceptions.md R159). -/
theorem step_of_idle_unit_turn {s : State} {rest : List Turn} (hbusy : s.busy = false) (h : s.agenda = .unit :: rest) :
    step s = .next { s with agenda := rest } :=
  (step_of_unit_turn h).trans (unitTurn_of_idle hbusy)

theorem step_of_idle_no_turn {s : State} (hbusy : s.busy = false) (h : s.agenda = []) : step s = .next s :=
  (step_of_no_turn h).trans (unitTurn_of_idle hbusy)

/-! ### The host's side of the state -/

/-- The state with the host's turns and replies replaced: all that a wait writes (10_state.md R40). -/
@[simp] def State.withHost (s : State) (agenda : List Turn) (replies : List HostReply) : State :=
  { s with agenda := agenda, replies := replies }

/-- A completion neither reads nor writes the host's side, an unwritten read's free response included. -/
theorem complete_withHost {o : Op Response} {s t : State} (h : complete o s = .next t) (agenda : List Turn)
    (replies : List HostReply) : complete o (s.withHost agenda replies) = .next (t.withHost agenda replies) := by
  rcases complete_cases o s with ⟨r, rfl, hr⟩ | ⟨e, rfl, hr⟩ | ⟨rfl, hr⟩ | ⟨a, -, hr⟩ | ⟨a, -, hr⟩ <;> rw [hr] at h <;>
    cases h <;> rfl

theorem unitStep_withHost {s t : State} (h : unitStep s = .next t) (agenda : List Turn) (replies : List HostReply) :
    unitStep (s.withHost agenda replies) = .next (t.withHost agenda replies) := by
  rw [unitStep_eq_complete] at h ⊢
  exact complete_withHost h agenda replies

/-- In an admitted block the latched command completes (10_state.md R31). -/
theorem unitStep_completes {s : State} (hs : s.params.wellFormed = true) :
    ∃ t, unitStep s = .next t ∧ t.busy = false ∧ t.respValid = true := by
  rw [unitStep_eq_complete]
  rcases complete_of_ends s (Params.inCap_of_wellFormed hs) (cmdOp_ends ..) with ⟨r, h⟩ | h
  · exact ⟨_, h, rfl, rfl⟩
  · exact ⟨_, h, rfl, rfl⟩

/-! ### Runs -/

theorem run_succ_of_step {s t : State} (h : step s = .next t) (n : Nat) : core.run (n + 1) s = core.run n t := by
  have hcore : core.step s = .next t := h
  simp only [Host.Core.run, hcore]

/-- `k` waits of the host use up `k` turns and answer the same flags `k` times; the block itself stays as it is. -/
theorem run_waits (k n : Nat) {s : State} {rest : List Turn} (h : s.agenda = List.replicate k (.host .wait) ++ rest) :
    core.run (k + n) s
      = core.run n (s.withHost rest (List.replicate k (.flags s.busy s.respValid) ++ s.replies)) := by
  induction k generalizing s with
  | zero => obtain rfl : s.agenda = rest := h; rw [Nat.zero_add]; rfl
  | succ k ih =>
    have hstep := step_of_host_turn (a := .wait) (rest := List.replicate k (.host .wait) ++ rest) h
    rw [Nat.add_right_comm, run_succ_of_step hstep, ih rfl]
    simp [List.replicate_succ']

end Sys2Proof.Machine
end

section
/-! SUPPORT. The statements of the reset and the hazards (70_reset_and_hazards.md), settled. -/

namespace Sys2Proof.Proofs

open Sys2Proof.Machine Sys2Proof.Claims

/-- Settles O42: the waits touch the host's side of the state alone, and a completion does not depend on it. -/
theorem latencyChangesNoResponse : Obligations.LatencyChangesNoResponse := by
  intro k s hs hbusy hturns
  obtain ⟨u, hu, hidle, hvalid⟩ := unitStep_completes hs
  have hlast (replies : List HostReply) : step (s.withHost [] replies) = .next (u.withHost [] replies) := by
    rw [step_of_no_turn rfl, unitTurn_of_busy (s := s.withHost [] replies) hbusy]
    exact unitStep_withHost hu [] replies
  have hwaits := run_waits k 1 (hturns.trans (List.append_nil _).symm)
  exact ⟨_, u, hwaits.trans (run_succ_of_step (hlast _) 0), hu, rfl, rfl, hidle, hvalid⟩

/-- Settles O41: the host's turn is its reset, which leaves BUSY clear, so that the unit's next turn has nothing to
complete. -/
theorem hostResetAbandonsTheTransaction : Obligations.HostResetAbandonsTheTransaction := by
  intro s rest hturn
  refine ⟨_, step_of_host_turn hturn, rfl, rfl, rfl, ⟨rfl, rfl, fun _ => rfl, rfl⟩, fun _ => rfl, rfl, rfl, rfl,
    fun hnone => ?_, fun rest' hunit => ?_⟩
  · exact step_of_idle_no_turn rfl hnone
  · exact step_of_idle_unit_turn rfl hunit

end Sys2Proof.Proofs
end
